-- ==== Sys2Proof/Word.lean ====
section
/-! DEFINITION. The words BCX is made of (spec/00_scope.md R7, R11; spec/10_state.md R38; spec/30_encoding.md R70). -/

namespace Sys2Proof

/-- One byte of BUF (spec/20_memory.md R50). -/
abbrev Byte := BitVec 8

/-- A command word, CMD (spec/30_encoding.md R70). -/
abbrev CmdWord := BitVec 16

/-- The data operand DATA, and the 64-bit value path (spec/00_scope.md R7, spec/30_encoding.md R70). -/
abbrev Word64 := BitVec 64

/-- `ceil(log2 n)` for `n >= 1`: how many bits the values `0 .. n-1` take (the port widths of spec/10_state.md R38). -/
def ceilLog2 (n : Nat) : Nat :=
  if n ≤ 1 then 0 else Nat.log2 (n - 1) + 1

end Sys2Proof
end

