-- ==== Sys2Proof/Config.lean ====
section
/-! DEFINITION. What an implementation of BCX fixes, and the one value the spec leaves free. -/

namespace Sys2Proof

/-- The OPEN parameter of a BCX (spec/00_scope.md R5, spec/10_state.md R40): `BUF_BYTES`, at least 1. It travels in
State because a step takes no other argument; no step writes it (log 1, DESIGN CHOICE). -/
structure Params where
  bufBytes : Nat
  deriving DecidableEq, Repr

/-- The parameter that State.reset takes. DESIGN CHOICE (log 1), unsafe only for a claim about State.reset: the spec
leaves BUF_BYTES open, and 64 is the capacity spec/95_test_vectors.md uses. -/
def Params.default : Params := { bufBytes := 64 }

/-- `PW`, the width of pos_o, rsp_nbits and rsp_groups (spec/10_state.md R38). -/
def Params.posWidth (p : Params) : Nat := ceilLog2 (8 * p.bufBytes + 1)

/-- `LW`, the width of len_o (spec/10_state.md R38). -/
def Params.lenWidth (p : Params) : Nat := ceilLog2 (p.bufBytes + 1)

/-- `TW`, the width of rsp_target (spec/10_state.md R38). -/
def Params.targetWidth (p : Params) : Nat := ceilLog2 (8 * p.bufBytes + 32768)

/-- FREE VALUE, DESIGN CHOICE (log 5), safe: whether the byte addressed by a WRBUF that a reset abandoned holds the new byte (true) or
its old value (false), at the n-th such draw (spec/70_reset_and_hazards.md R231: "the model draws one of the two").
It has no body, so nothing can be proved of which it is. -/
opaque Config.inFlightDraw : Nat → Bool

end Sys2Proof
end

