-- ==== Sys2Proof/Syntax.lean ====
section
/-! DEFINITION. The eleven commands of spec/opcode_table.json, one constructor per row. -/

namespace Sys2Proof

/-- A well-formed BCX command with its operands (spec/30_encoding.md R72, R76). Every field has exactly the width its
encoding gives it, so a term of this type is a command that some CMD and DATA express, and no other. -/
inductive Instr
  /-- NOP (spec/42_control.md R160). -/
  | nop
  /-- READ with the W field of the command word; the width is `W + 1` (spec/30_encoding.md R73, spec/40_extract.md R100). -/
  | read (w : BitVec 6)
  /-- HDR (spec/41_fields.md R122). -/
  | hdr
  /-- LIT (spec/41_fields.md R123). -/
  | lit
  /-- LTYPE (spec/41_fields.md R124). -/
  | ltype
  /-- COUNT (spec/41_fields.md R125). -/
  | count
  /-- TLEN (spec/41_fields.md R126). -/
  | tlen
  /-- PKT (spec/41_fields.md R127). -/
  | pkt
  /-- CHK with its target, all of DATA (spec/41_fields.md R128). -/
  | chk (target : BitVec 64)
  /-- START with the stream length in bytes, all of DATA (spec/42_control.md R161). -/
  | start (len : BitVec 64)
  /-- WRBUF with the address DATA[63:8] and the byte DATA[7:0] (spec/42_control.md R162). -/
  | wrbuf (addr : BitVec 56) (byte : BitVec 8)
  deriving DecidableEq, Repr

end Sys2Proof
end

