-- ==== Sys2Proof/WellFormed.lean ====
section
/-! DEFINITION. Which command words are well-formed (spec/30_encoding.md R74), and which assembler operands are. -/

namespace Sys2Proof

/-- The opcodes of R74 whose other twelve bits must be zero: every opcode of R72 but READ's. -/
def plainOpcodes : List (BitVec 4) :=
  [0x0#4, 0x2#4, 0x3#4, 0x4#4, 0x5#4, 0x6#4, 0x7#4, 0x8#4, 0x9#4, 0xA#4]

/-- `WellFormed(CMD)` of spec/30_encoding.md R74. DATA plays no part in it. -/
def wellFormed (cmd : CmdWord) : Bool :=
  (cmd.extractLsb' 12 4 == 0x1#4 && cmd.extractLsb' 6 6 == 0#6)
    || (plainOpcodes.contains (cmd.extractLsb' 12 4) && cmd.extractLsb' 0 12 == 0#12)

/-- The width of a READ as an assembler may be given it: `1 .. 64` (spec/00_scope.md R7, spec/30_encoding.md R77). -/
def widthOk (n : Nat) : Bool := 1 ≤ n && n ≤ 64

/-- A byte operand an assembler may be given (spec/30_encoding.md R77). -/
def byteOk (b : Nat) : Bool := b ≤ 255

/-- A WRBUF address an assembler may be given: it refuses one of `2^56` or more (spec/30_encoding.md R77). -/
def addrOk (a : Nat) : Bool := a < 2 ^ 56

/-- A number that the 64 bits of DATA can carry (spec/30_encoding.md R70). -/
def dataOk (d : Nat) : Bool := d < 2 ^ 64

end Sys2Proof
end

