-- ==== Sys2Proof/Decode.lean ====
section
/-! DEFINITION. Decoding a command `(CMD, DATA)`, total and rejecting by name, and the encoder
(spec/30_encoding.md R70-R76). -/

namespace Sys2Proof

/-- Why a command word is not well-formed (spec/30_encoding.md R74, R75). -/
inductive Reject
  /-- The opcode is one of the reserved 0xB to 0xF. -/
  | reservedOpcode (op : BitVec 4)
  /-- A bit that the opcode requires to be zero is one: RSV, or W outside READ. -/
  | reservedBits (cmd : CmdWord)
  deriving DecidableEq, Repr

/-- `CMD[15:12]`, OP (R71). -/
def opField (cmd : CmdWord) : BitVec 4 := cmd.extractLsb' 12 4

/-- `CMD[11:6]`, RSV (R71). -/
def rsvField (cmd : CmdWord) : BitVec 6 := cmd.extractLsb' 6 6

/-- `CMD[5:0]`, W (R71). -/
def wField (cmd : CmdWord) : BitVec 6 := cmd.extractLsb' 0 6

/-- `DATA[63:8]`, WRBUF's address (R76). -/
def dataAddr (data : Word64) : BitVec 56 := data.extractLsb' 8 56

/-- `DATA[7:0]`, WRBUF's byte (R76). -/
def dataByte (data : Word64) : BitVec 8 := data.extractLsb' 0 8

/-- A command whose RSV and W must both be zero (R71). -/
def decodePlain (cmd : CmdWord) (i : Instr) : Except Reject Instr :=
  if rsvField cmd = 0 ∧ wField cmd = 0 then .ok i else .error (.reservedBits cmd)

/-- The command that CMD and DATA express, by the opcode map of R72; a word that is not well-formed (R74) is rejected. -/
def decode (cmd : CmdWord) (data : Word64) : Except Reject Instr :=
  match (opField cmd).toNat with
  | 0x0 => decodePlain cmd .nop
  | 0x1 => if rsvField cmd = 0 then .ok (.read (wField cmd)) else .error (.reservedBits cmd)
  | 0x2 => decodePlain cmd .hdr
  | 0x3 => decodePlain cmd .lit
  | 0x4 => decodePlain cmd .ltype
  | 0x5 => decodePlain cmd .count
  | 0x6 => decodePlain cmd .tlen
  | 0x7 => decodePlain cmd .pkt
  | 0x8 => decodePlain cmd (.chk data)
  | 0x9 => decodePlain cmd (.start data)
  | 0xA => decodePlain cmd (.wrbuf (dataAddr data) (dataByte data))
  | _ => .error (.reservedOpcode (opField cmd))

/-- The width that a READ's W field stands for: `n = zext(W) + 1` (R73). -/
def readWidth (w : BitVec 6) : Nat := w.toNat + 1

/-- The command word of a command (the whole 16-bit encodings of R72). -/
def encodeCmd : Instr → CmdWord
  | .nop => 0x0000#16
  | .read w => 0x1000#16 ||| w.setWidth 16
  | .hdr => 0x2000#16
  | .lit => 0x3000#16
  | .ltype => 0x4000#16
  | .count => 0x5000#16
  | .tlen => 0x6000#16
  | .pkt => 0x7000#16
  | .chk _ => 0x8000#16
  | .start _ => 0x9000#16
  | .wrbuf _ _ => 0xA000#16

/-- The data operand of a command; 0 where the command ignores DATA (R76, R77), `(a << 8) | b` for WRBUF (R77). -/
def encodeData : Instr → Word64
  | .nop => 0
  | .read _ => 0
  | .hdr => 0
  | .lit => 0
  | .ltype => 0
  | .count => 0
  | .tlen => 0
  | .pkt => 0
  | .chk target => target
  | .start len => len
  | .wrbuf addr byte => (addr.setWidth 64 <<< 8) ||| byte.setWidth 64

/-- `(CMD, DATA)` of a command. -/
def encode (i : Instr) : CmdWord × Word64 := (encodeCmd i, encodeData i)

/-- The command word in an instruction numbered as the opcode table numbers it: its low 16 bits (log 18, DESIGN CHOICE). -/
def tableCmd (nbits w : Nat) : CmdWord := BitVec.ofNat 16 (w % 2 ^ nbits)

/-- The data operand in an instruction so numbered: the 64 bits above CMD, zero above `nbits` (log 18, DESIGN CHOICE). -/
def tableData (nbits w : Nat) : Word64 := BitVec.ofNat 64 (w % 2 ^ nbits / 2 ^ 16)

/-- The command that the decoder reads from an instruction whose bits are `w`, numbered as spec/opcode_table.json
numbers them. -/
def decodeTableWord (nbits w : Nat) : Option Instr :=
  match decode (tableCmd nbits w) (tableData nbits w) with
  | .ok i => some i
  | .error _ => none

end Sys2Proof
end

