-- ==== Sys2Proof/Machine/State.lean ====
section
/-! DEFINITION. BCX's state as plain data (spec/10_state.md R20-R44), its reset value, and why a step can stop. -/

namespace Sys2Proof.Machine

/-- The codes of ERR and RESP.STATUS (spec/60_exceptions.md R200). The codes 4 to 7 are never written
(spec/10_state.md R24, R26), so they are not represented (log 9, DEDUCED). -/
inductive ErrCode
  /-- Code 0, NONE or OK. -/
  | none
  /-- Code 1, OUT_OF_BITS (R201). -/
  | outOfBits
  /-- Code 2, MISMATCHED_SUBPACKET_LENGTH (R202). -/
  | mismatchedSubpacketLength
  /-- Code 3, BAD_COMMAND (R203). -/
  | badCommand
  deriving DecidableEq, Repr

/-- The 3-bit code of an error (spec/60_exceptions.md R200). -/
def ErrCode.code : ErrCode → BitVec 3
  | .none => 0
  | .outOfBits => 1
  | .mismatchedSubpacketLength => 2
  | .badCommand => 3

/-- What PKT found, RESP.KIND (spec/10_state.md R31). -/
inductive Kind
  /-- Code 0, NONE: every command but PKT. -/
  | none
  /-- Code 1, LITERAL. -/
  | literal
  /-- Code 2, OP_COUNT. -/
  | opCount
  /-- Code 3, OP_LENGTH. -/
  | opLength
  deriving DecidableEq, Repr

/-- The 2-bit code of a kind (spec/10_state.md R31). -/
def Kind.code : Kind → BitVec 2
  | .none => 0
  | .literal => 1
  | .opCount => 2
  | .opLength => 3

/-- The response record RESP, its eleven fields in the order of spec/10_state.md R25. TARGET, NBITS and GROUPS are the
exact integers of R33-R35 (log 8, DEDUCED). -/
structure Resp where
  status  : ErrCode
  refused : Bool
  value   : BitVec 64
  version : BitVec 3
  typeId  : BitVec 3
  kind    : Kind
  ltype   : BitVec 1
  target  : Nat
  nbits   : Nat
  groups  : Nat
  litovf  : Bool
  deriving DecidableEq, Repr

/-- RESP with every field 0 (spec/10_state.md R30, R42). -/
def Resp.zero : Resp :=
  { status := .none, refused := false, value := 0, version := 0, typeId := 0, kind := .none, ltype := 0,
    target := 0, nbits := 0, groups := 0, litovf := false }

/-- What the host does to BCX in one step of the transaction model (spec/10_state.md R39, spec/70_reset_and_hazards.md
R230, R231). Offering nothing is no act: the list of acts is then empty. Breaking the handshake is no act (log 12,
DESIGN CHOICE, unsafe for such a host). -/
inductive HostAct
  /-- The host offers a command, which BCX accepts and ends. -/
  | command (cmd : BitVec 16) (data : BitVec 64)
  /-- rst is raised and lowered with no command in flight (R230; log 11, DESIGN CHOICE). -/
  | reset
  /-- BCX accepts a command, and rst is raised and lowered before the command ends (R231). -/
  | resetInFlight (cmd : BitVec 16) (data : BitVec 64)
  deriving DecidableEq, Repr

/-- The whole state of BCX. -/
structure State where
  /-- BUF_BYTES, the implementation's parameter (spec/00_scope.md R5); no step writes it (log 1, DESIGN CHOICE). -/
  params   : Params
  /-- BUF: the bytes that hold a known value, by address, rising (spec/10_state.md R21). -/
  buf      : List (Nat × BitVec 8)
  /-- Which bytes a WRBUF has written since reset, rising (spec/20_memory.md R62: the model tracks it). -/
  written  : List Nat
  /-- LEN (spec/10_state.md R22). -/
  len      : Nat
  /-- POS (spec/10_state.md R23). -/
  pos      : Nat
  /-- ERR (spec/10_state.md R24). -/
  err      : ErrCode
  /-- RESP (spec/10_state.md R25). -/
  resp     : Resp
  /-- The rsp_valid port: RESP was written by the step just ended (spec/10_state.md R39, log 7, DEDUCED). -/
  rspValid : Bool
  /-- The MODEL's own: how many free draws have been made (log 5, DESIGN CHOICE). -/
  draws    : Nat
  /-- The MODEL's own: the host's acts still to come, oldest first (log 2, DESIGN CHOICE). -/
  host     : List HostAct
  deriving DecidableEq, Repr

/-- Why BCX's model stops. -/
inductive Fault
  /-- `UninitRead` of spec/20_memory.md R62: a stream read of the byte at `addr`, which no WRBUF has written since
  reset. Raised by READ, HDR, LIT, LTYPE, COUNT, TLEN and PKT. Safe: the hardware goes on with some byte, and the
  model says nothing of which. -/
  | uninitRead (addr : Nat)
  deriving DecidableEq, Repr

/-- Why an instruction has no meaning. -/
inductive Refusal
  /-- Raised by exec's arm of an instruction that is not modelled yet; no arm does. Safe. -/
  | notModelled (mnemonic : String)
  deriving DecidableEq, Repr

/-- The state right after power-up and reset of a BCX with the given parameters (spec/10_state.md R42,
spec/70_reset_and_hazards.md R230, R232): POS, LEN, ERR and RESP zero, rsp_valid 0, and no byte of BUF known
(log 4, log 19, DESIGN CHOICE). -/
def State.resetOf (p : Params) : State :=
  { params := p, buf := [], written := [], len := 0, pos := 0, err := .none, resp := Resp.zero, rspValid := false,
    draws := 0, host := [] }

/-- The state right after reset. Its BUF_BYTES is a DESIGN CHOICE (log 1). -/
def State.reset : State := State.resetOf Params.default

end Sys2Proof.Machine
end

