-- ==== Sys2Proof/Machine/Ops.lean ====
section
/-! DEFINITION. The named operations over BUF, its marks, POS and RESP: reading and writing a byte, `respond`, `raise`,
refusal, reset, and a WRBUF abandoned by reset. -/

namespace Sys2Proof.Machine

/-- The outcome of a command or a step. -/
abbrev Out := Host.Outcome State Fault Refusal

/-- What ends a command before it can respond. -/
inductive Stop
  /-- `raise E` (spec/60_exceptions.md R205): a next state. -/
  | error (e : ErrCode)
  /-- The model-only fault of spec/20_memory.md R62. -/
  | uninitRead (addr : Nat)
  deriving DecidableEq, Repr

/-! ### BUF: a list of cells, addresses strictly rising (spec/20_memory.md R50) -/

/-- The byte that the cells hold at an address; none where none is listed. -/
def cellAt : List (Nat × BitVec 8) → Nat → Option (BitVec 8)
  | [], _ => none
  | (a, b) :: rest, i => if a = i then some b else cellAt rest i

/-- The cells with the byte at one address replaced or added, in order. -/
def setCell : List (Nat × BitVec 8) → Nat → BitVec 8 → List (Nat × BitVec 8)
  | [], i, v => [(i, v)]
  | (a, b) :: rest, i, v =>
    if i < a then (i, v) :: (a, b) :: rest
    else if i = a then (i, v) :: rest
    else (a, b) :: setCell rest i v

/-- The marks with one address added, in order. -/
def setMark : List Nat → Nat → List Nat
  | [], i => [i]
  | a :: rest, i =>
    if i < a then i :: a :: rest
    else if i = a then a :: rest
    else a :: setMark rest i

/-- A list of numbers that rises strictly: the canonical form of addresses and of marks. -/
def rising : List Nat → Bool
  | [] => true
  | [_] => true
  | a :: b :: rest => a < b && rising (b :: rest)

/-- The canonical form of BUF: addresses strictly rising. An unlisted address reads as no value, so no listed byte
equals what an unlisted address reads as. -/
def Memory.wf (m : List (Nat × BitVec 8)) : Bool := rising (m.map Prod.fst)

/-- A byte of BUF as a stream read sees it: one that no WRBUF has written since reset is the fault UninitRead
(spec/20_memory.md R62, log 3, DEDUCED). -/
def State.readByte (s : State) (i : Nat) : Except Stop (BitVec 8) :=
  if s.written.contains i then
    match cellAt s.buf i with
    | some b => .ok b
    | none => .error (.uninitRead i)
  else .error (.uninitRead i)

/-- `BUF[a] <- b`, made only by WRBUF (spec/20_memory.md R61); the byte is marked as written (R62). -/
def State.writeByte (s : State) (a : Nat) (b : BitVec 8) : State :=
  { s with buf := setCell s.buf a b, written := setMark s.written a }

/-! ### POS, LEN, ERR and RESP -/

/-- `POS <- p` (spec/10_state.md R23). -/
def State.setPos (s : State) (p : Nat) : State := { s with pos := p }

/-- RESP written whole, with the pulse of rsp_valid (spec/10_state.md R30, R39). -/
def State.writeResp (s : State) (r : Resp) : State := { s with resp := r, rspValid := true }

/-- START's writes: `LEN <- len`, `POS <- 0`, `ERR <- 0` (spec/42_control.md R161). -/
def State.beginStream (s : State) (len : Nat) : State := { s with len := len, pos := 0, err := .none }

/-- `raise E`, taking an error (spec/60_exceptions.md R205, R206): ERR keeps the first error, RESP reports this one, and
BUF, LEN and POS are those of the state the command began in. There is no return from an error but START and reset
(R208, R213). -/
def State.raise (s : State) (e : ErrCode) : State :=
  State.writeResp { s with err := if s.err = .none then e else s.err } { Resp.zero with status := e }

/-- Refusal while ERR != 0 (spec/60_exceptions.md R207). -/
def State.refuse (s : State) : State := s.writeResp { Resp.zero with status := s.err, refused := true }

/-- The end of a command that began in `s`: the state it computed, or `raise`, or the fault of a read of an unwritten
byte. -/
def conclude (s : State) : Except Stop State → Out
  | .ok t => .next t
  | .error (.error e) => .next (s.raise e)
  | .error (.uninitRead a) => .fault (.uninitRead a)

/-- A command other than START and WRBUF, as the step dispatches it (spec/60_exceptions.md R209): refused while
ERR != 0, else run. -/
def gated (s : State) (body : Except Stop State) : Out :=
  if s.err = .none then conclude s body else .next s.refuse

/-- A command word that is not well-formed (spec/60_exceptions.md R203, R207, R209). -/
def malformed (s : State) : Out :=
  if s.err = .none then .next (s.raise .badCommand) else .next s.refuse

/-! ### Reset and idling -/

/-- rst (spec/70_reset_and_hazards.md R230, spec/10_state.md R42): POS, LEN, ERR and RESP zero. BUF is not written, and
no byte of it counts as written since this reset (spec/20_memory.md R62; the marks kept apart from BUF are log 4). -/
def State.hardReset (s : State) : State :=
  { s with written := [], len := 0, pos := 0, err := .none, resp := Resp.zero, rspValid := false }

/-- What a WRBUF abandoned by reset leaves in the byte it addressed (spec/70_reset_and_hazards.md R231,
spec/93_implementation_defined.md item 4): the old value or the new, by the next free draw; a byte with no known value
keeps none (log 5, DESIGN CHOICE). -/
def State.abandonWrite (s : State) (a : Nat) (b : BitVec 8) : State :=
  if a < s.params.bufBytes then
    match cellAt s.buf a with
    | some _ =>
      { s with
        buf := if Config.inFlightDraw s.draws then setCell s.buf a b else s.buf
        draws := s.draws + 1 }
    | none => s
  else s

/-- A reset with a command in flight (spec/70_reset_and_hazards.md R231): no response, and no effect but that of
`abandonWrite`. -/
def State.abandon (s : State) (cmd : BitVec 16) (data : BitVec 64) : State :=
  match decode cmd data with
  | .ok (.wrbuf addr byte) => (s.abandonWrite addr.toNat byte).hardReset
  | _ => s.hardReset

/-- The host offers nothing: BCX waits, and rsp_valid has ended its one cycle (spec/10_state.md R39,
spec/70_reset_and_hazards.md R232). -/
def State.idle (s : State) : State := { s with rspValid := false }

end Sys2Proof.Machine
end

