-- ==== Sys2Proof/Machine/Operands.lean ====
section
/-! DEFINITION. The operands of the commands: the stream reads `StreamBit`, `Bits` and `LitLoop` (spec/20_memory.md R52,
R55; spec/41_fields.md R121), the numbers in DATA, and the two other forms of `Bits` that the spec gives (R57, R58). -/

namespace Sys2Proof.Machine

/-- Bit `7 - (k mod 8)` of a byte, for stream bit `k` (spec/20_memory.md R52). -/
def bitOfByte (b : BitVec 8) (k : Nat) : BitVec 1 := b.extractLsb' (7 - k % 8) 1

/-- `StreamBit(k)` (spec/20_memory.md R52). -/
def State.streamBit (s : State) (k : Nat) : Except Stop (BitVec 1) := do
  let b ← s.readByte (k / 8)
  return bitOfByte b k

/-- The loop of `Bits` (spec/20_memory.md R55): `n` more bits from stream bit `p`, shifted into `v`. -/
def State.bitsLoop (s : State) : Nat → Nat → BitVec 64 → Except Stop (BitVec 64)
  | 0, _, v => .ok v
  | n + 1, p, v => do
    let b ← s.streamBit p
    s.bitsLoop n (p + 1) ((v <<< 1) ||| b.setWidth 64)

/-- `Bits(p, n)` (spec/20_memory.md R55): the value, zero-extended to 64 bits, and the new position.
The length check comes before any byte is read (log 13, DEDUCED). -/
def State.bits (s : State) (p n : Nat) : Except Stop (BitVec 64 × Nat) :=
  if p + n > 8 * s.len then .error (.error .outOfBits)
  else do
    let v ← s.bitsLoop n p 0
    return (v, p + n)

/-- What `LitLoop` returns (spec/41_fields.md R121). -/
structure LitResult where
  acc    : BitVec 64
  groups : Nat
  ovf    : Bool
  pos    : Nat
  deriving DecidableEq, Repr

/-- The turns of `LitLoop` (spec/41_fields.md R121; beyond 64 bits log 17, DEDUCED). The first argument only bounds the
number of turns, so that the recursion is structural; `litFuel` turns are always enough (spec/70_reset_and_hazards.md R240,
log 10, DEDUCED), and the arm at 0 is the answer of a turn that finds no bits. -/
def State.litTurns (s : State) : Nat → BitVec 64 → Nat → Bool → Nat → Except Stop LitResult
  | 0, _, _, _, _ => .error (.error .outOfBits)
  | fuel + 1, acc, g, ovf, p => do
    let (x, p) ← s.bits p 5
    let ovf := ovf || acc.extractLsb' 60 4 != 0
    let acc := (acc <<< 4) ||| (x.extractLsb' 0 4).setWidth 64
    if x.getLsbD 4 then s.litTurns fuel acc (g + 1) ovf p
    else return { acc := acc, groups := g + 1, ovf := ovf, pos := p }

/-- More turns than the stream holds groups: `floor(8*LEN / 5) + 1` (spec/70_reset_and_hazards.md R240). -/
def State.litFuel (s : State) : Nat := 8 * s.len / 5 + 1

/-- `LitLoop(p)` (spec/41_fields.md R121). -/
def State.litLoop (s : State) (p : Nat) : Except Stop LitResult := s.litTurns s.litFuel 0 0 false p

/-! ### The numbers in DATA (spec/30_encoding.md R76) -/

/-- CHK's target, an unsigned stream position. -/
def chkTarget (target : BitVec 64) : Nat := target.toNat

/-- START's stream length, an unsigned byte count. -/
def startLen (len : BitVec 64) : Nat := len.toNat

/-- The address a WRBUF stores to, unsigned. -/
def wrbufAddr (addr : BitVec 56) : Nat := addr.toNat

/-! ### The other two forms of `Bits`

No command uses them: the spec gives them as equal to `Bits`, and the obligations say so. -/

/-- A byte of the barrel window (spec/20_memory.md R57). Where its index is LEN or more it is a filler: the rule takes 0x00
and lets an implementation drive any value. (A byte below LEN with no known value is 0x00 here; `Bits` faults on a read
that selects it, R62.) -/
def State.windowByte (s : State) (fill : Nat → BitVec 8) (i : Nat) : BitVec 8 :=
  if i < s.len then (cellAt s.buf i).getD 0 else fill i

/-- `W`, the 72-bit window of nine bytes from byte `q` (spec/20_memory.md R57). -/
def State.window (s : State) (fill : Nat → BitVec 8) (q : Nat) : BitVec 72 :=
  s.windowByte fill q ++ s.windowByte fill (q + 1) ++ s.windowByte fill (q + 2) ++ s.windowByte fill (q + 3)
    ++ s.windowByte fill (q + 4) ++ s.windowByte fill (q + 5) ++ s.windowByte fill (q + 6) ++ s.windowByte fill (q + 7)
    ++ s.windowByte fill (q + 8)

/-- The barrel-shifter form of an extracted value: one shift by `72 - r - n` and a mask (spec/20_memory.md R57). -/
def State.barrelValue (s : State) (fill : Nat → BitVec 8) (p n : Nat) : BitVec 64 :=
  ((s.window fill (p / 8) >>> (72 - p % 8 - n)) &&& BitVec.ofNat 72 (2 ^ n - 1)).setWidth 64

/-- The steps of the chunked form (spec/20_memory.md R58): `left` bits from stream bit `k`, a byte's rest at a time. The
first argument bounds the number of steps. -/
def State.chunkSteps (s : State) : Nat → BitVec 64 → Nat → Nat → Except Stop (BitVec 64 × Nat)
  | 0, v, k, _ => .ok (v, k)
  | fuel + 1, v, k, left =>
    if left = 0 then .ok (v, k)
    else do
      let b ← s.readByte (k / 8)
      let avail := 8 - k % 8
      let take := min avail left
      let chunk := b.extractLsb' (avail - take) take
      s.chunkSteps fuel ((v <<< take) ||| chunk.setWidth 64) (k + take) (left - take)

/-- The chunked form of `Bits(p, n)`, with the OUT_OF_BITS check before the loop (spec/20_memory.md R58). Each step takes
at least one bit, so `n` steps are enough. -/
def State.chunkedBits (s : State) (p n : Nat) : Except Stop (BitVec 64 × Nat) :=
  if p + n > 8 * s.len then .error (.error .outOfBits) else s.chunkSteps n 0 p n

end Sys2Proof.Machine
end

