-- ==== Sys2Proof/Machine/Flags.lean ====
section
/-! DEFINITION. The response records of the commands: BCX's flags are the fields of RESP (spec/10_state.md R25-R36). A
field that a command's rule does not name is 0 (R30). -/

namespace Sys2Proof.Machine

/-- READ and COUNT: the field and its width (spec/40_extract.md R100, spec/41_fields.md R125). -/
def respField (v : BitVec 64) (n : Nat) : Resp := { Resp.zero with value := v, nbits := n }

/-- HDR: the six header bits, with VERSION = h[5:3] and TYPE = h[2:0] (spec/41_fields.md R122). -/
def respHdr (h : BitVec 64) : Resp :=
  { Resp.zero with value := h, version := h.extractLsb' 3 3, typeId := h.extractLsb' 0 3, nbits := 6 }

/-- LIT (spec/41_fields.md R123). -/
def respLit (l : LitResult) : Resp :=
  { Resp.zero with value := l.acc, groups := l.groups, litovf := l.ovf, nbits := 5 * l.groups }

/-- LTYPE (spec/41_fields.md R124). -/
def respLtype (b : BitVec 64) : Resp := { Resp.zero with value := b, ltype := b.extractLsb' 0 1, nbits := 1 }

/-- TLEN, with TARGET the exact sum of the position after the field and the total length (spec/41_fields.md R126,
spec/10_state.md R33). -/
def respTlen (total : BitVec 64) (p1 : Nat) : Resp :=
  { Resp.zero with value := total, target := p1 + total.toNat, nbits := 15 }

/-- PKT on a literal, KIND = 1 (spec/41_fields.md R127). -/
def respPktLiteral (ver typ : BitVec 3) (l : LitResult) (p0 : Nat) : Resp :=
  { Resp.zero with kind := .literal, version := ver, typeId := typ, value := l.acc, groups := l.groups,
                   litovf := l.ovf, nbits := l.pos - p0 }

/-- PKT on a count-delimited operator, KIND = 2 (spec/41_fields.md R127). -/
def respPktCount (ver typ : BitVec 3) (c : BitVec 64) (p p0 : Nat) : Resp :=
  { Resp.zero with kind := .opCount, version := ver, typeId := typ, ltype := 1, value := c, nbits := p - p0 }

/-- PKT on a length-delimited operator, KIND = 3 (spec/41_fields.md R127). -/
def respPktLength (ver typ : BitVec 3) (total : BitVec 64) (p p0 : Nat) : Resp :=
  { Resp.zero with kind := .opLength, version := ver, typeId := typ, ltype := 0, value := total,
                   target := p + total.toNat, nbits := p - p0 }

/-- CHK: 1 when POS is below the target, 0 when it equals it (spec/41_fields.md R128). -/
def respChk (more : Bool) : Resp := { Resp.zero with value := if more then 1 else 0 }

end Sys2Proof.Machine
end

