-- ==== Sys2Proof/Machine/Control.lean ====
section
/-! DEFINITION. The stream-control family: NOP, START, WRBUF (spec/42_control.md). START and WRBUF run while ERR != 0 as
well (spec/60_exceptions.md R209). -/

namespace Sys2Proof.Machine

/-- NOP (spec/42_control.md R160). -/
def execNop (s : State) : Out := gated s (.ok (s.writeResp Resp.zero))

/-- START: a new stream of `len` bytes at bit position 0 (spec/42_control.md R161). -/
def execStart (len : BitVec 64) (s : State) : Out :=
  conclude s
    (if startLen len > s.params.bufBytes then .error (.error .badCommand)
     else .ok ((s.beginStream (startLen len)).writeResp Resp.zero))

/-- WRBUF: one byte of the buffer (spec/42_control.md R162). -/
def execWrbuf (addr : BitVec 56) (byte : BitVec 8) (s : State) : Out :=
  conclude s
    (if wrbufAddr addr ≥ s.params.bufBytes then .error (.error .badCommand)
     else .ok ((s.writeByte (wrbufAddr addr) byte).writeResp Resp.zero))

end Sys2Proof.Machine
end

