-- ==== Sys2Proof/Machine/Extract.lean ====
section
/-! DEFINITION. The extraction family: READ (spec/40_extract.md). -/

namespace Sys2Proof.Machine

/-- A command that reads one field of `n` bits at POS and responds with `resp v p1`, for the value `v` and the position
`p1` after it: the common shape of READ, HDR, LTYPE, COUNT and TLEN (spec/40_extract.md R100, spec/41_fields.md R120). -/
def State.readField (s : State) (n : Nat) (resp : BitVec 64 → Nat → Resp) : Except Stop State := do
  let (v, p1) ← s.bits s.pos n
  return (s.setPos p1).writeResp (resp v p1)

/-- READ: `n = W + 1` bits (spec/40_extract.md R100, spec/30_encoding.md R73). -/
def execRead (w : BitVec 6) (s : State) : Out :=
  gated s (s.readField (readWidth w) fun v _ => respField v (readWidth w))

end Sys2Proof.Machine
end

