-- ==== Sys2Proof/Machine/Fields.lean ====
section
/-! DEFINITION. The field-decoder family: HDR, LIT, LTYPE, COUNT, TLEN, PKT, CHK (spec/41_fields.md). -/

namespace Sys2Proof.Machine

/-- HDR: the 6-bit packet header (spec/41_fields.md R122). -/
def execHdr (s : State) : Out := gated s (s.readField 6 fun h _ => respHdr h)

/-- LIT: a literal body (spec/41_fields.md R123). -/
def execLit (s : State) : Out :=
  gated s do
    let l ← s.litLoop s.pos
    return (s.setPos l.pos).writeResp (respLit l)

/-- LTYPE: the 1-bit length type (spec/41_fields.md R124). -/
def execLtype (s : State) : Out := gated s (s.readField 1 fun b _ => respLtype b)

/-- COUNT: the 11-bit child count (spec/41_fields.md R125). -/
def execCount (s : State) : Out := gated s (s.readField 11 fun c _ => respField c 11)

/-- TLEN: the 15-bit total length and its target (spec/41_fields.md R126). -/
def execTlen (s : State) : Out := gated s (s.readField 15 respTlen)

/-- PKT's literal body, from position `p` (spec/41_fields.md R127). -/
def State.pktLiteral (s : State) (ver typ : BitVec 3) (p : Nat) : Except Stop State := do
  let l ← s.litLoop p
  return (s.setPos l.pos).writeResp (respPktLiteral ver typ l s.pos)

/-- PKT's operator head, from position `p` (spec/41_fields.md R127). -/
def State.pktOperator (s : State) (ver typ : BitVec 3) (p : Nat) : Except Stop State := do
  let (lt, p) ← s.bits p 1
  if lt.getLsbD 0 then
    let (c, p) ← s.bits p 11
    return (s.setPos p).writeResp (respPktCount ver typ c p s.pos)
  else
    let (total, p) ← s.bits p 15
    return (s.setPos p).writeResp (respPktLength ver typ total p s.pos)

/-- PKT: one packet head (spec/41_fields.md R127). -/
def execPkt (s : State) : Out :=
  gated s do
    let (v, p) ← s.bits s.pos 3
    let (t, p) ← s.bits p 3
    let ver := v.extractLsb' 0 3
    let typ := t.extractLsb' 0 3
    if typ = 4 then s.pktLiteral ver typ p else s.pktOperator ver typ p

/-- CHK: POS against the target (spec/41_fields.md R128). -/
def execChk (target : BitVec 64) (s : State) : Out :=
  gated s
    (if s.pos > chkTarget target then .error (.error .mismatchedSubpacketLength)
     else .ok (s.writeResp (respChk (s.pos < chkTarget target))))

end Sys2Proof.Machine
end

