-- ==== Sys2Proof/Machine/Dispatch.lean ====
section
/-! DEFINITION. `Execute` of spec/60_exceptions.md R209: one arm per command. -/

namespace Sys2Proof.Machine

def exec (i : Instr) (s : State) : Host.Outcome State Fault Refusal :=
  match i with
  | .nop => Sys2Proof.Machine.execNop s
  | .read w => Sys2Proof.Machine.execRead w s
  | .hdr => Sys2Proof.Machine.execHdr s
  | .lit => Sys2Proof.Machine.execLit s
  | .ltype => Sys2Proof.Machine.execLtype s
  | .count => Sys2Proof.Machine.execCount s
  | .tlen => Sys2Proof.Machine.execTlen s
  | .pkt => Sys2Proof.Machine.execPkt s
  | .chk target => Sys2Proof.Machine.execChk target s
  | .start len => Sys2Proof.Machine.execStart len s
  | .wrbuf addr byte => Sys2Proof.Machine.execWrbuf addr byte s

end Sys2Proof.Machine
end

