-- ==== Sys2Proof/Machine/Port.lean ====
section
/-! DEFINITION. The command port: one accepted command (spec/60_exceptions.md R209), the host's acts, and what the output
ports show (spec/10_state.md R38). -/

namespace Sys2Proof.Machine

/-- One accepted command `(CMD, DATA)`, `Step` of spec/60_exceptions.md R209. The ERR gate of a well-formed command is in
its meaning (log 14, DESIGN CHOICE). -/
def accept (cmd : BitVec 16) (data : BitVec 64) (s : State) : Out :=
  match decode cmd data with
  | .ok i => exec i s
  | .error _ => malformed s

/-- One act of the host. -/
def perform (a : HostAct) (s : State) : Out :=
  match a with
  | .command cmd data => accept cmd data s
  | .reset => .next s.hardReset
  | .resetInFlight cmd data => .next (s.abandon cmd data)

/-- The host's next act, taken off the list, performed; with none to come, BCX waits (spec/70_reset_and_hazards.md
R232, log 2, DESIGN CHOICE). -/
def portStep (s : State) : Out :=
  match s.host with
  | [] => .next s.idle
  | a :: rest => perform a { s with host := rest }

/-- The state with one more command offered first (log 2, DESIGN CHOICE). -/
def State.offer (s : State) (cmd : BitVec 16) (data : BitVec 64) : State :=
  { s with host := .command cmd data :: s.host }

/-- What BCX drives on its output ports between steps, the ports of spec/10_state.md R38 in its order. cmd_ready is 1
between steps, as no command is then in flight (R39); the clock-edge view has it at every cycle. -/
structure Outputs where
  cmdReady   : Bool
  rspValid   : Bool
  rspStatus  : BitVec 3
  rspRefused : Bool
  rspValue   : BitVec 64
  rspVersion : BitVec 3
  rspType    : BitVec 3
  rspKind    : BitVec 2
  rspLtype   : BitVec 1
  rspTarget  : Nat
  rspNbits   : Nat
  rspGroups  : Nat
  rspLitovf  : Bool
  posO       : Nat
  lenO       : Nat
  errO       : BitVec 3
  deriving DecidableEq, Repr

/-- The output ports in a state (spec/10_state.md R38; err_o is a level, spec/60_exceptions.md R215). -/
def State.outputs (s : State) : Outputs :=
  { cmdReady := true, rspValid := s.rspValid, rspStatus := s.resp.status.code, rspRefused := s.resp.refused,
    rspValue := s.resp.value, rspVersion := s.resp.version, rspType := s.resp.typeId, rspKind := s.resp.kind.code,
    rspLtype := s.resp.ltype, rspTarget := s.resp.target, rspNbits := s.resp.nbits, rspGroups := s.resp.groups,
    rspLitovf := s.resp.litovf, posO := s.pos, lenO := s.len, errO := s.err.code }

end Sys2Proof.Machine
end

