-- ==== Sys2Proof/Machine/Step.lean ====
section
/-! DEFINITION. One step of BCX at the transaction level (spec/00_scope.md R10): the host's next act. -/

namespace Sys2Proof.Machine

/-- One step: what the host does next, and BCX's whole answer to it (spec/60_exceptions.md R209). -/
def step (s : State) : Host.Outcome State Fault Refusal := portStep s

/-- The state in which the very next step runs the command whose bits are `w`, numbered as spec/opcode_table.json numbers
them: the host offers it before its other acts (log 2, log 18, DESIGN CHOICE). -/
def State.withFetchWord (s : State) (nbits w : Nat) : State := s.offer (tableCmd nbits w) (tableData nbits w)

end Sys2Proof.Machine
end

