-- ==== Sys2Proof/Machine/Assembler.lean ====
section
/-! DEFINITION. The assembler syntax and the pseudo-instructions (spec/30_encoding.md R77, R78). It is a notation for host
command sequences: no step of the machine uses it (log 15, DESIGN CHOICE). -/

namespace Sys2Proof.Machine

/-- One line of assembly: the eleven commands with plain numbers as operands, and the three pseudo-instructions. -/
inductive AsmLine
  | nop
  | read (n : Nat)
  | hdr
  | lit
  | ltype
  | count
  | tlen
  | pkt
  | chk (t : Nat)
  | start (len : Nat)
  | wrbuf (addr byte : Nat)
  | skip (n : Nat)
  | load (bytes : List Nat)
  | loadHex (digits : List Char)
  deriving DecidableEq, Repr

/-- `READ n`, refused outside 1..64 (R77). -/
def assembleRead (n : Nat) : Option Instr :=
  if widthOk n then some (.read (BitVec.ofNat 6 (n - 1))) else none

/-- `START len` (R77); a length that DATA cannot carry is refused. -/
def assembleStart (len : Nat) : Option Instr :=
  if dataOk len then some (.start (BitVec.ofNat 64 len)) else none

/-- `WRBUF addr, byte`, refused for a byte above 255 or an address of `2^56` or more (R77). -/
def assembleWrbuf (addr byte : Nat) : Option Instr :=
  if addrOk addr && byteOk byte then some (.wrbuf (BitVec.ofNat 56 addr) (BitVec.ofNat 8 byte)) else none

/-- The WRBUFs of `LOAD`, from byte index `i` (R78). -/
def assembleBytes : Nat → List Nat → Option (List Instr)
  | _, [] => some []
  | i, b :: rest => do
    let w ← assembleWrbuf i b
    let ws ← assembleBytes (i + 1) rest
    return w :: ws

/-- `LOAD b0 b1 ...`: the bytes and a START of their number, refused for more than BUF_BYTES bytes (R78). -/
def assembleLoad (p : Params) (bytes : List Nat) : Option (List Instr) := do
  if bytes.length ≤ p.bufBytes then
    let ws ← assembleBytes 0 bytes
    let st ← assembleStart bytes.length
    return ws ++ [st]
  else none

/-- The value of a hex digit, of either case. -/
def hexDigit (c : Char) : Option Nat :=
  let n := c.toNat
  if 48 ≤ n ∧ n ≤ 57 then some (n - 48)
  else if 65 ≤ n ∧ n ≤ 70 then some (n - 55)
  else if 97 ≤ n ∧ n ≤ 102 then some (n - 87)
  else none

/-- The bytes of an even-length hex string: digits `2i` and `2i+1` give bits 7..4 and 3..0 of byte `i`
(spec/20_memory.md R53). -/
def hexBytes : List Char → Option (List Nat)
  | [] => some []
  | [_] => none
  | hi :: lo :: rest => do
    let h ← hexDigit hi
    let l ← hexDigit lo
    let bs ← hexBytes rest
    return (16 * h + l) :: bs

/-- The commands a line stands for (R77, R78); none where the assembler refuses it. -/
def assembleLine (p : Params) : AsmLine → Option (List Instr)
  | .nop => some [.nop]
  | .read n => (assembleRead n).map fun i => [i]
  | .hdr => some [.hdr]
  | .lit => some [.lit]
  | .ltype => some [.ltype]
  | .count => some [.count]
  | .tlen => some [.tlen]
  | .pkt => some [.pkt]
  | .chk t => if dataOk t then some [.chk (BitVec.ofNat 64 t)] else none
  | .start len => (assembleStart len).map fun i => [i]
  | .wrbuf addr byte => (assembleWrbuf addr byte).map fun i => [i]
  | .skip n => (assembleRead n).map fun i => [i]
  | .load bytes => assembleLoad p bytes
  | .loadHex digits => (hexBytes digits).bind (assembleLoad p)

/-! ### The text of a line (R77) -/

/-- A space or a tab. -/
def isBlank (c : Char) : Bool := c == ' ' || c.toNat == 9

/-- A text without the blanks at its two ends. -/
def trim (t : List Char) : List Char := ((t.dropWhile isBlank).reverse.dropWhile isBlank).reverse

/-- An ASCII letter as a capital; any other character as it is. -/
def capital (c : Char) : Char := if 97 ≤ c.toNat ∧ c.toNat ≤ 122 then Char.ofNat (c.toNat - 32) else c

/-- The pieces of a text between the characters that `sep` holds of. -/
def splitText (sep : Char → Bool) : List Char → List (List Char)
  | [] => [[]]
  | c :: rest =>
    match splitText sep rest with
    | [] => [[]]
    | piece :: more => if sep c then [] :: piece :: more else (c :: piece) :: more

/-- Digits in a base, after the value of the digits before them. -/
def digitsValue (base : Nat) : Nat → List Char → Option Nat
  | acc, [] => some acc
  | acc, c :: rest =>
    match hexDigit c with
    | some d => if d < base then digitsValue base (base * acc + d) rest else none
    | none => none

/-- A number, decimal or hex with `0x` (R77). -/
def parseNumber : List Char → Option Nat
  | [] => none
  | '0' :: 'x' :: c :: rest => digitsValue 16 0 (c :: rest)
  | t => digitsValue 10 0 t

/-- All of a list's numbers. -/
def parseNumbers : List (List Char) → Option (List Nat)
  | [] => some []
  | t :: rest => do
    let n ← parseNumber (trim t)
    let ns ← parseNumbers rest
    return n :: ns

/-- The operands of a command, separated by commas (R77); no operand where the text is blank. -/
def parseOperands (t : List Char) : Option (List Nat) :=
  if (trim t).isEmpty then some [] else parseNumbers (splitText (· == ',') t)

/-- The hex digits between the double quotes of `LOADHEX` (R78). -/
def quoted (t : List Char) : Option (List Char) :=
  match trim t with
  | q :: rest =>
    match rest.reverse with
    | r :: body => if q.toNat = 34 ∧ r.toNat = 34 then some body.reverse else none
    | [] => none
  | [] => none

/-- A line of text: the mnemonic, of either case, and its operands (R77, R78). -/
def parseLine (line : String) : Option AsmLine :=
  let t := trim line.toList
  let name := String.ofList ((t.takeWhile fun c => !isBlank c).map capital)
  let rest := t.dropWhile fun c => !isBlank c
  if name = "LOADHEX" then (quoted rest).map .loadHex
  else if name = "LOAD" then
    (parseNumbers ((splitText isBlank rest).filter fun w => !w.isEmpty)).map .load
  else match name, parseOperands rest with
    | "NOP", some [] => some .nop
    | "READ", some [n] => some (.read n)
    | "HDR", some [] => some .hdr
    | "LIT", some [] => some .lit
    | "LTYPE", some [] => some .ltype
    | "COUNT", some [] => some .count
    | "TLEN", some [] => some .tlen
    | "PKT", some [] => some .pkt
    | "CHK", some [t] => some (.chk t)
    | "START", some [len] => some (.start len)
    | "WRBUF", some [addr, byte] => some (.wrbuf addr byte)
    | "SKIP", some [n] => some (.skip n)
    | _, _ => none

/-- A line of text as the commands, with their words and data, that it stands for. -/
def assemble (p : Params) (line : String) : Option (List (CmdWord × Word64)) := do
  let l ← parseLine line
  let is ← assembleLine p l
  return is.map encode

end Sys2Proof.Machine
end

