-- ==== Sys2Proof/Machine/Clock.lean ====
section
/-! DEFINITION. BCX at its pins, one rising edge of clk at a time: the handshake, the in-flight command and reset
(spec/10_state.md R38, R39, R44; spec/70_reset_and_hazards.md R230, R231, R235, R239). `step` does not use this view; the
obligations say that a command run through it has exactly the effect of one step (log 6, DESIGN CHOICE). -/

namespace Sys2Proof.Machine

/-- The input pins as BCX samples them at a rising edge of clk (spec/10_state.md R38). -/
structure Pins where
  rst      : Bool
  cmdValid : Bool
  cmdWord  : BitVec 16
  cmdData  : BitVec 64
  deriving DecidableEq, Repr

/-- The command in flight, with the edges left until the one that ends it (spec/10_state.md R44). -/
structure InFlight where
  cmd  : BitVec 16
  data : BitVec 64
  left : Nat
  deriving DecidableEq, Repr

/-- BCX between two edges: its architectural state and the hidden in-flight item of spec/10_state.md R44. -/
structure Clocked where
  core     : State
  inFlight : Option InFlight
  deriving DecidableEq, Repr

/-- cmd_ready in a cycle: low while rst is 1 and while a command is in flight (spec/10_state.md R39,
spec/70_reset_and_hazards.md R230). -/
def Clocked.cmdReady (c : Clocked) (rst : Bool) : Bool := !rst && c.inFlight.isNone

/-- rsp_valid in a cycle: low while rst is 1 (spec/70_reset_and_hazards.md R230). -/
def Clocked.rspValid (c : Clocked) (rst : Bool) : Bool := !rst && c.core.rspValid

/-- The outcome at the edge that ends a command: nothing is in flight after it. -/
def endCommand : Out → Host.Outcome Clocked Fault Refusal
  | .next s => .next { core := s, inFlight := none }
  | .fault f => .fault f
  | .refused r => .refused r

/-- The edge at which rst is 1: reset, and what is in flight is abandoned (spec/70_reset_and_hazards.md R230, R231). -/
def resetEdge (c : Clocked) : Clocked :=
  match c.inFlight with
  | none => { core := c.core.hardReset, inFlight := none }
  | some f => { core := c.core.abandon f.cmd f.data, inFlight := none }

/-- A rising edge of clk. A command is accepted where cmd_valid, cmd_ready and not rst hold; `latency` is LATENCY for a
command accepted at this edge (spec/00_scope.md R9: at least 1), and the command's writes happen at the edge that ends it,
that many cycles later. -/
def clockEdge (latency : Nat) (p : Pins) (c : Clocked) : Host.Outcome Clocked Fault Refusal :=
  if p.rst then .next (resetEdge c)
  else match c.inFlight with
    | some f =>
      if f.left ≤ 1 then endCommand (accept f.cmd f.data c.core)
      else .next { c with inFlight := some { f with left := f.left - 1 } }
    | none =>
      .next { core := c.core.idle
              inFlight := if p.cmdValid then some { cmd := p.cmdWord, data := p.cmdData, left := latency } else none }

/-- The edges of a list of sampled pins, one after another. -/
def clockRun (latency : Nat) : List Pins → Clocked → Host.Outcome Clocked Fault Refusal
  | [], c => .next c
  | p :: rest, c =>
    match clockEdge latency p c with
    | .next c' => clockRun latency rest c'
    | .fault f => .fault f
    | .refused r => .refused r

end Sys2Proof.Machine
end

