-- ==== Sys2Proof/Machine/Driver.lean ====
section
/-! DEFINITION. The host's reference procedure (spec/48_driver.md R181-R187), which drives BCX through a whole decode. It
is host software, not BCX (spec/00_scope.md R4): no step of the machine uses it. -/

namespace Sys2Proof.Machine

/-- The source's packet model (spec/48_driver.md R181). -/
inductive Packet
  | literal (version : BitVec 3) (value : BitVec 64)
  | operator (version : BitVec 3) (typeId : BitVec 3) (children : List Packet)
  deriving Repr

mutual
/-- The nesting depth of a packet: 1 for a literal (spec/48_driver.md R188). -/
def Packet.depth : Packet → Nat
  | .literal _ _ => 1
  | .operator _ _ children => 1 + Packet.depthList children
/-- The greatest depth among packets; 0 for none. -/
def Packet.depthList : List Packet → Nat
  | [] => 0
  | p :: rest => max p.depth (Packet.depthList rest)
end

/-- How a part of a decode ends. -/
inductive Decoded (α : Type)
  /-- It returned. -/
  | done (a : α) (s : State)
  /-- `fail(e)`: the whole decode ends with this code (spec/48_driver.md R185). -/
  | failed (e : ErrCode) (s : State)
  /-- The model stopped: a byte that was never written was read (spec/20_memory.md R62). -/
  | stopped (f : Fault)
  /-- The model refused a command; no command of BCX is refused by the model. -/
  | refused (r : Refusal)
  /-- The bound on the recursion was reached; it is never reached from `decodeFuel` (log 16, DESIGN CHOICE). -/
  | outOfFuel

/-- What comes after a part of a decode that returned; the other ways to end are the whole decode's end. -/
def Decoded.andThen {α β : Type} (d : Decoded α) (next : α → State → Decoded β) : Decoded β :=
  match d with
  | .done a s => next a s
  | .failed e s => .failed e s
  | .stopped f => .stopped f
  | .refused r => .refused r
  | .outOfFuel => .outOfFuel

/-- `issue C` (spec/48_driver.md R181): the command as its word and data, and its response. `fail(e)` follows at once on
a STATUS that is not 0 (R185). -/
def issue (i : Instr) (s : State) : Decoded Resp :=
  match accept (encodeCmd i) (encodeData i) s with
  | .next t => if t.resp.status = .none then .done t.resp t else .failed t.resp.status t
  | .fault f => .stopped f
  | .refused r => .refused r

/-- The termination predicate of `DecodeChildren` (spec/48_driver.md R182, R183). -/
inductive Until
  | count (c : Nat)
  | length (t : Nat)
  deriving DecidableEq, Repr

/-- `done(children)`, with the number of children so far: `CountDone` needs no command, `LengthDone` issues CHK
(spec/48_driver.md R182, R183). -/
def childrenDone (u : Until) (sofar : Nat) (s : State) : Decoded Bool :=
  match u with
  | .count c => .done (sofar == c) s
  | .length t => (issue (.chk (BitVec.ofNat 64 t)) s).andThen fun r s => .done (r.value == 0) s

/-- The predicate for the children of an operator, from its PKT response (spec/48_driver.md R181). -/
def childrenUntil (r : Resp) : Until :=
  if r.kind = .opCount then .count r.value.toNat else .length r.target

mutual
/-- `DecodePacket()` (spec/48_driver.md R181): the packet, and with it its token stream, the PKT responses in the order in
which they came (R187). The first argument bounds the recursion. -/
def decodePacket : Nat → State → Decoded (Packet × List Resp)
  | 0, _ => .outOfFuel
  | fuel + 1, s =>
    (issue .pkt s).andThen fun r s =>
      if r.kind = .literal then .done (.literal r.version r.value, [r]) s
      else
        (decodeChildren fuel (childrenUntil r) 0 s).andThen fun children s =>
          .done (.operator r.version r.typeId children.1, r :: children.2) s
/-- `DecodeChildren(done)` (spec/48_driver.md R182), after `sofar` children; the predicate is tested before each child. -/
def decodeChildren : Nat → Until → Nat → State → Decoded (List Packet × List Resp)
  | 0, _, _, _ => .outOfFuel
  | fuel + 1, u, sofar, s =>
    (childrenDone u sofar s).andThen fun finished s =>
      if finished then .done ([], []) s
      else
        (decodePacket fuel s).andThen fun p s =>
          (decodeChildren fuel u (sofar + 1) s).andThen fun rest s => .done (p.1 :: rest.1, p.2 ++ rest.2) s
end

/-- A bound on the recursion that a decode from `s` never reaches: each level and each child consumes bits, so one more
than the bits left is enough (spec/70_reset_and_hazards.md R240, spec/48_driver.md R188, log 16, DESIGN CHOICE). -/
def decodeFuel (s : State) : Nat := 8 * s.len - s.pos + 1

/-- The last part of a whole decode: `DecodePacket()` once, from POS (spec/48_driver.md R184), with the token stream. -/
def decodeStream (s : State) : Decoded (Packet × List Resp) := decodePacket (decodeFuel s) s

/-! ### A whole decode: load, START, skip, `DecodePacket()` (spec/48_driver.md R184) -/

/-- Commands issued one after another, each after the response to the one before; the first response with STATUS != 0
ends the whole decode (spec/48_driver.md R185). -/
def issueAll : List Instr → State → Decoded Unit
  | [], s => .done () s
  | i :: rest, s => (issue i s).andThen fun _ s => issueAll rest s

/-- The READs that skip `n` bits: as many of 64 bits as fit, and one of the rest (spec/48_driver.md R184; the split is
log 20, DESIGN CHOICE, and by spec/40_extract.md R101 no other would end elsewhere). -/
def skipCommands (n : Nat) : List Instr :=
  List.replicate (n / 64) (.read 63) ++ if n % 64 = 0 then [] else [.read (BitVec.ofNat 6 (n % 64 - 1))]

/-- A whole decode of `bytes` from stream bit `skip`, whatever state BCX is in (spec/48_driver.md R184): the bytes are
loaded and STARTed as by LOAD (spec/30_encoding.md R78), `skip` bits are skipped, and `DecodePacket()` runs once. None
where the host has more bytes than LOAD takes. -/
def wholeDecode (bytes : List Byte) (skip : Nat) (s : State) : Option (Decoded (Packet × List Resp)) :=
  (assembleLoad s.params (bytes.map BitVec.toNat)).map fun load =>
    (issueAll (load ++ skipCommands skip) s).andThen fun _ s => decodeStream s

/-! ### The tree from the tokens alone (spec/48_driver.md R187) -/

/-- Whether an operator that began its children has them all: after `sofar` of them, at position `pos`. An OP_LENGTH token
takes subtrees while the position after each is below TARGET. -/
def Until.finished (u : Until) (sofar pos : Nat) : Bool :=
  match u with
  | .count c => sofar == c
  | .length t => !(pos < t)

mutual
/-- One packet rebuilt from the tokens at position `pos`, with the position after it and the tokens left. -/
def rebuildPacket : Nat → Nat → List Resp → Option (Packet × Nat × List Resp)
  | 0, _, _ => none
  | _ + 1, _, [] => none
  | fuel + 1, pos, r :: tokens =>
    if r.kind = .literal then some (.literal r.version r.value, pos + r.nbits, tokens)
    else
      (rebuildChildren fuel (childrenUntil r) 0 (pos + r.nbits) tokens).map fun c =>
        (.operator r.version r.typeId c.1, c.2)
/-- The children of an operator rebuilt from the tokens at position `pos`. -/
def rebuildChildren : Nat → Until → Nat → Nat → List Resp → Option (List Packet × Nat × List Resp)
  | 0, _, _, _, _ => none
  | fuel + 1, u, sofar, pos, tokens =>
    if u.finished sofar pos then some ([], pos, tokens)
    else
      (rebuildPacket fuel pos tokens).bind fun p =>
        (rebuildChildren fuel u (sofar + 1) p.2.1 p.2.2).map fun rest => (p.1 :: rest.1, rest.2)
end

end Sys2Proof.Machine
end

