-- ==== Sys2Proof/Safety.lean ====
section
/-! DEFINITION. The terms that claims about BCX use: what the stream holds, read as plain numbers and without the loops of
the machine, which reads are safe, and the invariant of every step boundary. -/

namespace Sys2Proof.Machine

/-- A byte of BUF has been written since reset and has a known value, so a stream read of it is safe
(spec/20_memory.md R62). -/
def State.known (s : State) (i : Nat) : Bool := s.written.contains i && (cellAt s.buf i).isSome

/-- Stream bit `k` as the number 0 or 1: bit `7 - (k mod 8)` of byte `k div 8` (spec/20_memory.md R52). -/
def State.bitAt (s : State) (k : Nat) : Nat := ((cellAt s.buf (k / 8)).getD 0).toNat / 2 ^ (7 - k % 8) % 2

/-- The `n` stream bits from `p` as a number, the first bit the most significant (spec/20_memory.md R55). -/
def State.fieldNat (s : State) (p : Nat) : Nat → Nat
  | 0 => 0
  | n + 1 => 2 * s.fieldNat p n + s.bitAt (p + n)

/-- The true value of the literal whose `g` groups start at `p`: their nibbles, the first most significant
(spec/30_encoding.md R80). -/
def State.literalNat (s : State) (p : Nat) : Nat → Nat
  | 0 => 0
  | g + 1 => 16 * s.literalNat p g + s.fieldNat (p + 5 * g + 1) 4

/-- The bytes that hold the `n` stream bits from `p` are all known. -/
def State.Written (s : State) (p n : Nat) : Prop := ∀ k, k < n → s.known ((p + k) / 8) = true

/-- The `n` stream bits from `p` exist and are known: a read of them succeeds. -/
def State.Readable (s : State) (p n : Nat) : Prop := p + n ≤ 8 * s.len ∧ s.Written p n

/-- A complete literal body of `g` groups stands at `p`: the continuation flags are 1 up to the last group, whose flag is
0, and its bits can be read (spec/30_encoding.md R80). -/
def State.LiteralAt (s : State) (p g : Nat) : Prop :=
  1 ≤ g ∧ s.Readable p (5 * g) ∧ ∀ j, j < g → s.bitAt (p + 5 * j) = if j + 1 < g then 1 else 0

/-- The literal body at `p` runs off the end of the stream after `g` complete groups, each with continuation flag 1. -/
def State.LiteralCut (s : State) (p g : Nat) : Prop :=
  s.Written p (5 * g) ∧ p + 5 * g ≤ 8 * s.len ∧ 8 * s.len < p + 5 * (g + 1) ∧
    ∀ j, j < g → s.bitAt (p + 5 * j) = 1

/-- Every byte of the stream is known: the host has done its duty (spec/48_driver.md R180). -/
def State.Loaded (s : State) : Prop := ∀ i, i < s.len → s.known i = true

/-- The state that responds to a command with `r` and advances POS to `p` (spec/10_state.md R30). -/
def State.answered (s : State) (p : Nat) (r : Resp) : State := { s with pos := p, resp := r, rspValid := true }

/-- The state after an error `e` (spec/60_exceptions.md R205): ERR takes it only if it was 0, RESP reports it, and the rest
is as it was. -/
def State.failing (s : State) (e : ErrCode) : State :=
  { s with err := if s.err = .none then e else s.err, resp := { Resp.zero with status := e }, rspValid := true }

/-- The width of the one read that READ, HDR, LTYPE, COUNT or TLEN makes (spec/20_memory.md R60); the other commands make
none, or more than one. -/
def singleRead : Instr → Option Nat
  | .read w => some (w.toNat + 1)
  | .hdr => some 6
  | .ltype => some 1
  | .count => some 11
  | .tlen => some 15
  | .nop => none
  | .lit => none
  | .pkt => none
  | .chk _ => none
  | .start _ => none
  | .wrbuf _ _ => none

/-- The commands that read the stream (spec/10_state.md R23: those that move POS by reading). -/
def isExtraction : Instr → Bool
  | .read _ => true
  | .hdr => true
  | .lit => true
  | .ltype => true
  | .count => true
  | .tlen => true
  | .pkt => true
  | .nop => false
  | .chk _ => false
  | .start _ => false
  | .wrbuf _ _ => false

/-- The commands that run while ERR != 0 (spec/60_exceptions.md R209). -/
def runsInError : Instr → Bool
  | .start _ => true
  | .wrbuf _ _ => true
  | .nop => false
  | .read _ => false
  | .hdr => false
  | .lit => false
  | .ltype => false
  | .count => false
  | .tlen => false
  | .pkt => false
  | .chk _ => false

/-- What holds at every step boundary: spec/10_state.md R43 with the ranges of R22, R23 and R33-R35, BUF's canonical form
and its marks. -/
structure State.Inv (s : State) : Prop where
  bufBytes_pos : 1 ≤ s.params.bufBytes
  buf_wf       : Memory.wf s.buf = true
  buf_bound    : ∀ a, (cellAt s.buf a).isSome = true → a < s.params.bufBytes
  written_wf   : rising s.written = true
  written_known : ∀ a, a ∈ s.written → (cellAt s.buf a).isSome = true
  len_le       : s.len ≤ s.params.bufBytes
  pos_le       : s.pos ≤ 8 * s.len
  refused      : s.resp.refused = true → s.resp.status = s.err ∧ s.err ≠ .none
  status       : s.resp.status ≠ .none → s.err ≠ .none
  target_le    : s.resp.target ≤ 8 * s.params.bufBytes + 32767
  nbits_le     : s.resp.nbits ≤ 8 * s.params.bufBytes
  groups_le    : 5 * s.resp.groups ≤ 8 * s.params.bufBytes

/-- Two states that differ only in BUF's bytes at index LEN or above (spec/20_memory.md R51). -/
def State.SameStream (s t : State) : Prop :=
  (∀ i, i < s.len → s.readByte i = t.readByte i) ∧ t.params = s.params ∧ t.len = s.len ∧ t.pos = s.pos ∧
    t.err = s.err ∧ t.resp = s.resp ∧ t.rspValid = s.rspValid ∧ t.draws = s.draws ∧ t.host = s.host

/-- Two outcomes that the host cannot tell apart: the same fault or refusal, or next states that agree on LEN, POS, ERR,
RESP and rsp_valid. -/
def Out.Alike : Out → Out → Prop
  | .next s, .next t =>
    t.len = s.len ∧ t.pos = s.pos ∧ t.err = s.err ∧ t.resp = s.resp ∧ t.rspValid = s.rspValid
  | .fault f, .fault g => f = g
  | .refused r, .refused q => r = q
  | _, _ => False

/-- Two states whose streams, positions and responses are the same: every byte below LEN reads alike, and LEN, POS, ERR and
RESP agree. BUF_BYTES, BUF at or above LEN and the model's own fields may differ. -/
def State.SameView (s t : State) : Prop :=
  (∀ i, i < s.len → s.readByte i = t.readByte i) ∧ t.len = s.len ∧ t.pos = s.pos ∧ t.err = s.err ∧ t.resp = s.resp

/-- Two ends of a part of a decode that the host cannot tell apart: the same result, code or stop, in states of one view. -/
def Decoded.Alike {α : Type} : Decoded α → Decoded α → Prop
  | .done a s, .done b t => a = b ∧ s.SameView t
  | .failed e s, .failed f t => e = f ∧ s.SameView t
  | .stopped f, .stopped g => f = g
  | .refused r, .refused q => r = q
  | .outOfFuel, .outOfFuel => True
  | _, _ => False

/-- The field of `n` bits at `p` lies inside the stream, and its bit `j` is the first that is in a byte not known. -/
def State.FirstUnwritten (s : State) (p n j : Nat) : Prop :=
  p + n ≤ 8 * s.len ∧ j < n ∧ s.Written p j ∧ s.known ((p + j) / 8) = false

/-- The literal body at `p` has `g` known groups, each with continuation flag 1, and then a group whose bit `j` is the
first in a byte not known. -/
def State.LiteralUnwritten (s : State) (p g j : Nat) : Prop :=
  s.Written p (5 * g) ∧ (∀ i, i < g → s.bitAt (p + 5 * i) = 1) ∧ s.FirstUnwritten (p + 5 * g) 5 j

/-- Run commands one after another, stopping at the first that is not a next state. -/
def execAll : List Instr → State → Out
  | [], s => .next s
  | i :: rest, s =>
    match exec i s with
    | .next t => execAll rest t
    | .fault f => .fault f
    | .refused r => .refused r

end Sys2Proof.Machine
end

