-- ==== Sys2Proof/Certificates/Slice0/Obligations.lean ====
section
/-! DEFINITION. The statements about BCX that the provers settle, from the numbered rules of spec/. -/

open Sys2Proof Sys2Proof.Machine

/-! ### Decoding and encoding -/

/-- R72: the whole 16-bit encodings of the eleven commands, READ's first and last among them, and R76's fields of DATA. -/
def Obligations.SpecWordsDecode : Prop :=
  decode 0x0000#16 0 = .ok .nop ∧ decode 0x1000#16 0 = .ok (.read 0) ∧ decode 0x103F#16 0 = .ok (.read 63) ∧
  decode 0x2000#16 0 = .ok .hdr ∧ decode 0x3000#16 0 = .ok .lit ∧ decode 0x4000#16 0 = .ok .ltype ∧
  decode 0x5000#16 0 = .ok .count ∧ decode 0x6000#16 0 = .ok .tlen ∧ decode 0x7000#16 0 = .ok .pkt ∧
  decode 0x8000#16 0x31#64 = .ok (.chk 49) ∧ decode 0x9000#16 0x40#64 = .ok (.start 64) ∧
  decode 0xA000#16 0x228#64 = .ok (.wrbuf 2 0x28#8)

/-- R72, R76: decoding the encoding of any command gives the command back, with every operand at every value. -/
def Obligations.DecodeOfEncodeIsIdentity : Prop :=
  ∀ i : Instr, decode (encodeCmd i) (encodeData i) = .ok i

/-- R74: the decoder accepts exactly the well-formed command words, whatever DATA is. -/
def Obligations.DecodeAcceptsExactlyTheWellFormedWords : Prop :=
  ∀ (cmd : CmdWord) (data : Word64), (∃ i, decode cmd data = .ok i) ↔ wellFormed cmd = true

/-- R74, R76: a decoded command encodes to the word it came from, and to its DATA where it uses DATA; so no word has two
meanings and no bit of a used operand is dropped. -/
def Obligations.EncodeOfDecodeIsTheWord : Prop :=
  ∀ (cmd : CmdWord) (data : Word64) (i : Instr), decode cmd data = .ok i →
    encodeCmd i = cmd ∧
      (encodeData i = data ∨ (encodeData i = 0 ∧ opField cmd ≠ 0x8#4 ∧ opField cmd ≠ 0x9#4 ∧ opField cmd ≠ 0xA#4))

/-- R75: exactly 74 of the 65,536 command words are well-formed. -/
def Obligations.ExactlySeventyFourWordsAreWellFormed : Prop :=
  ∃ words : List CmdWord, words.Nodup ∧ words.length = 74 ∧ ∀ cmd, cmd ∈ words ↔ wellFormed cmd = true

/-- R76: CHK and START take all 64 bits of DATA, WRBUF its bits 63..8 as the address and 7..0 as the byte; every command
with another opcode ignores DATA, whatever the word and the state. -/
def Obligations.DataOperandUse : Prop :=
  (∀ data : Word64, decode 0x8000#16 data = .ok (.chk data) ∧ decode 0x9000#16 data = .ok (.start data) ∧
    decode 0xA000#16 data = .ok (.wrbuf (data.extractLsb' 8 56) (data.extractLsb' 0 8))) ∧
  ∀ (cmd : CmdWord) (d1 d2 : Word64) (s : State),
    opField cmd ≠ 0x8#4 → opField cmd ≠ 0x9#4 → opField cmd ≠ 0xA#4 → accept cmd d1 s = accept cmd d2 s

/-! ### The step, the host's acts and reset -/

/-- R209: a step in which the host offers a word that decodes to a command is exec of that command, once the act is off
the host's list; nothing else is added. -/
def Obligations.StepRunsTheDecodedCommand : Prop :=
  ∀ (s : State) (cmd : CmdWord) (data : Word64) (rest : List HostAct) (i : Instr),
    s.host = .command cmd data :: rest → decode cmd data = .ok i → step s = exec i { s with host := rest }

/-- R209, R207, R74: the whole dispatch of an offered command `(CMD, DATA)`. While ERR != 0 all but a well-formed START or
WRBUF is refused; while ERR = 0 a word that is not well-formed raises BAD_COMMAND; every other command is executed, as the
one command that encodes to CMD. -/
def Obligations.StepFollowsTheDispatchRule : Prop :=
  ∀ (s : State) (cmd : CmdWord) (data : Word64) (rest : List HostAct), s.host = .command cmd data :: rest →
    (s.err ≠ .none → ¬ (wellFormed cmd = true ∧ (opField cmd = 0x9#4 ∨ opField cmd = 0xA#4)) → step s =
      .next { s with host := rest, resp := { Resp.zero with status := s.err, refused := true }, rspValid := true }) ∧
    (s.err = .none → wellFormed cmd = false → step s =
      .next { s with host := rest, err := .badCommand, resp := { Resp.zero with status := .badCommand }, rspValid := true }) ∧
    (wellFormed cmd = true → (s.err = .none ∨ opField cmd = 0x9#4 ∨ opField cmd = 0xA#4) →
      ∃ i, encodeCmd i = cmd ∧ decode cmd data = .ok i ∧ step s = exec i { s with host := rest })

/-- R232, R39: with nothing offered BCX waits, and only rsp_valid falls. -/
def Obligations.IdleStepOnlyEndsTheResponsePulse : Prop :=
  ∀ s : State, s.host = [] → step s = .next { s with rspValid := false }

/-- R42 (with R62's fault for an unspecified byte): after a reset POS, LEN, ERR and RESP are 0, rsp_valid is 0 and
cmd_ready 1, BUF is not written, reading any byte is UninitRead as none is written since, and a command that reads the
stream raises OUT_OF_BITS. -/
def Obligations.ResetActSetsTheResetValues : Prop :=
  ∀ (s : State) (rest : List HostAct), s.host = .reset :: rest →
    ∃ t, step s = .next t ∧ t.pos = 0 ∧ t.len = 0 ∧ t.err = .none ∧ t.resp = Resp.zero ∧ t.outputs.rspValid = false ∧
      t.outputs.cmdReady = true ∧ t.buf = s.buf ∧ t.params = s.params ∧ t.draws = s.draws ∧ t.host = rest ∧
      (∀ a, t.readByte a = .error (.uninitRead a)) ∧
      ∀ i, isExtraction i = true → exec i t = .next (t.failing .outOfBits)

/-- R231: a command in flight when reset comes gives no response and loses its effects; a WRBUF's byte holds its old value
or the new byte, and every other byte is as it was. And R62's "since reset" holds on this path too: reading any byte is then
UninitRead, the byte of the abandoned WRBUF among them. -/
def Obligations.ResetAbandonsTheCommandInFlight : Prop :=
  ∀ (s : State) (cmd : CmdWord) (data : Word64) (rest : List HostAct), s.host = .resetInFlight cmd data :: rest →
    ∃ t, step s = .next t ∧ t.pos = 0 ∧ t.len = 0 ∧ t.err = .none ∧ t.resp = Resp.zero ∧ t.rspValid = false ∧
      t.params = s.params ∧ t.host = rest ∧ (∀ a, t.readByte a = .error (.uninitRead a)) ∧
      ((∀ addr byte, decode cmd data ≠ .ok (.wrbuf addr byte)) → t.buf = s.buf) ∧
      (∀ addr byte, decode cmd data = .ok (.wrbuf addr byte) →
        (∀ a, a ≠ wrbufAddr addr → cellAt t.buf a = cellAt s.buf a) ∧
        (cellAt t.buf (wrbufAddr addr) = cellAt s.buf (wrbufAddr addr) ∨
          cellAt t.buf (wrbufAddr addr) = some byte))

/-- R42: the state after power-up and reset, for every BUF_BYTES. (The fields draws and host are the model's own; nothing
is said of them.) -/
def Obligations.ResetStateHoldsTheResetValues : Prop :=
  (∀ p : Params, (State.resetOf p).params = p ∧ (State.resetOf p).pos = 0 ∧ (State.resetOf p).len = 0 ∧
    (State.resetOf p).err = .none ∧ (State.resetOf p).resp = Resp.zero ∧ (State.resetOf p).rspValid = false ∧
    ∀ a, (State.resetOf p).readByte a = .error (.uninitRead a)) ∧
  ∃ p : Params, State.reset = State.resetOf p

/-- R42, R43: the invariant of every step boundary holds after reset, for every BUF_BYTES of at least 1. -/
def Obligations.ResetMeetsTheBoundaryConditions : Prop :=
  (∀ p : Params, 1 ≤ p.bufBytes → (State.resetOf p).Inv) ∧ State.reset.Inv

/-- R43 (with the ranges of R22, R23, R33-R35 and BUF's canonical form): every step keeps the invariant. -/
def Obligations.EveryStepKeepsTheBoundaryConditions : Prop :=
  ∀ s t : State, s.Inv → step s = .next t → t.Inv

/-- R38: at a step boundary every output port's value fits the width that R38 gives the port. -/
def Obligations.OutputPortsFitTheirWidths : Prop :=
  ∀ s : State, s.Inv →
    s.outputs.posO < 2 ^ s.params.posWidth ∧ s.outputs.lenO < 2 ^ s.params.lenWidth ∧
    s.outputs.rspNbits < 2 ^ s.params.posWidth ∧ s.outputs.rspGroups < 2 ^ s.params.posWidth ∧
    s.outputs.rspTarget < 2 ^ s.params.targetWidth

/-! ### The stream read -/

/-- R55, R52: `Bits(p, n)`, for a width of 1 to 64, raises OUT_OF_BITS where `p + n > 8*LEN`, whatever BUF holds; else,
where the bytes it reads are written (R62), it gives the field, zero-extended, and `p + n`: the first bit read is bit
`n - 1` of the value, the last is bit 0, and bits 63 to n are 0. -/
def Obligations.BitsReadsTheFieldMostSignificantFirst : Prop :=
  ∀ (s : State) (p n : Nat), 1 ≤ n → n ≤ 64 →
    (8 * s.len < p + n → s.bits p n = .error (.error .outOfBits)) ∧
    (s.Readable p n → ∃ v : Word64, s.bits p n = .ok (v, p + n) ∧ v.toNat = s.fieldNat p n ∧
      (∀ i, i < n → (v.getLsbD (n - 1 - i) = true ↔ s.bitAt (p + i) = 1)) ∧ ∀ i, n ≤ i → v.getLsbD i = false)

/-- R57: the barrel-shifter form gives the value of every `Bits(p, n)` that succeeds, whatever stands for the bytes of the
window at index LEN or more (0x00, or any value an implementation drives). -/
def Obligations.BarrelShifterFormEqualsBits : Prop :=
  ∀ (s : State) (fill : Nat → Byte) (p n : Nat) (v : Word64) (q : Nat), 1 ≤ n → n ≤ 64 → s.bits p n = .ok (v, q) →
    s.barrelValue fill p n = v

/-- R58: the chunked form equals `Bits(p, n)`, success and OUT_OF_BITS alike. That both meet the same UninitRead is not in
R58's words: it is R62 as log 13 (DEDUCED) reads it. -/
def Obligations.ChunkedFormEqualsBits : Prop :=
  ∀ (s : State) (p n : Nat), s.chunkedBits p n = s.bits p n

/-- R59: reading `n1` and then `n2` bits gives the bits of one read of `n1 + n2`; the first succeeds and the second raises
OUT_OF_BITS exactly where `p + n1 <= 8*LEN < p + n1 + n2`. -/
def Obligations.NarrowReadsCompose : Prop :=
  (∀ (s : State) (p n1 n2 : Nat) (v1 v2 : Word64), n1 + n2 ≤ 64 → s.bits p n1 = .ok (v1, p + n1) →
    s.bits (p + n1) n2 = .ok (v2, p + n1 + n2) → s.bits p (n1 + n2) = .ok ((v1 <<< n2) ||| v2, p + n1 + n2)) ∧
  (∀ (s : State) (p n1 n2 : Nat), s.Written p n1 →
    ((∃ v, s.bits p n1 = .ok (v, p + n1)) ∧ s.bits (p + n1) n2 = .error (.error .outOfBits) ↔
      p + n1 ≤ 8 * s.len ∧ 8 * s.len < p + n1 + n2))

/-- R121, R240: `LitLoop` ends by itself. More turns than `litFuel` change nothing, and a literal that is returned has at
least one group and at most `floor((8*LEN - p) / 5)`, and ends right after them. -/
def Obligations.LiteralLoopEndsByItself : Prop :=
  (∀ (s : State) (fuel : Nat) (acc : Word64) (g : Nat) (ovf : Bool) (p : Nat), s.litFuel ≤ fuel →
    s.litTurns fuel acc g ovf p = s.litTurns s.litFuel acc g ovf p) ∧
  (∀ (s : State) (p : Nat) (r : LitResult), s.litLoop p = .ok r →
    1 ≤ r.groups ∧ r.groups ≤ (8 * s.len - p) / 5 ∧ r.pos = p + 5 * r.groups)

/-- R51: the host cannot tell two states apart that differ only in bytes of BUF at index LEN or above, by any command. -/
def Obligations.BytesAtOrAboveLenNeverMatter : Prop :=
  ∀ (i : Instr) (s t : State), s.SameStream t → Out.Alike (exec i s) (exec i t)

/-! ### What each command does, where it succeeds -/

/-- R160: NOP, `0x0000` with any DATA, only writes RESP: every field 0 while ERR = 0, and a refusal while ERR != 0. -/
def Obligations.NopOnlyRespondsOk : Prop :=
  ∀ s : State, (∀ data, decode 0x0000#16 data = .ok .nop) ∧
    (s.err = .none → exec .nop s = .next { s with resp := Resp.zero, rspValid := true }) ∧
    (s.err ≠ .none → exec .nop s =
      .next { s with resp := { Resp.zero with status := s.err, refused := true }, rspValid := true })

/-- R100: READ, `0x1000 | (n-1)` with any DATA, at every width 1 to 64 and every position: the field, or OUT_OF_BITS where fewer
than n bits remain. -/
def Obligations.ReadReturnsTheField : Prop :=
  ∀ (w : BitVec 6) (s : State), (∀ data, decode (0x1000#16 ||| w.setWidth 16) data = .ok (.read w)) ∧
    (s.err = .none → s.Readable s.pos (w.toNat + 1) → exec (.read w) s = .next (s.answered (s.pos + (w.toNat + 1))
      { Resp.zero with value := BitVec.ofNat 64 (s.fieldNat s.pos (w.toNat + 1)), nbits := w.toNat + 1 })) ∧
    (s.err = .none → 8 * s.len < s.pos + (w.toNat + 1) → exec (.read w) s = .next (s.failing .outOfBits))

/-- R122: HDR, `0x2000` with any DATA: the six bits, the version, the type id, or OUT_OF_BITS. -/
def Obligations.HdrReturnsVersionAndType : Prop :=
  ∀ (s : State), (∀ data, decode 0x2000#16 data = .ok .hdr) ∧
    (s.err = .none → s.Readable s.pos 6 → exec .hdr s = .next (s.answered (s.pos + 6)
      { Resp.zero with value := BitVec.ofNat 64 (s.fieldNat s.pos 6), version := BitVec.ofNat 3 (s.fieldNat s.pos 3),
                       typeId := BitVec.ofNat 3 (s.fieldNat (s.pos + 3) 3), nbits := 6 })) ∧
    (s.err = .none → 8 * s.len < s.pos + 6 → exec .hdr s = .next (s.failing .outOfBits))

/-- R123 (with R121's values): LIT, `0x3000` with any DATA, of a complete literal of any number of groups: the true value
modulo 2^64, and LITOVF exactly where the true value is 2^64 or more, which up to 16 groups never reach; OUT_OF_BITS where
the stream ends before a group with continuation flag 0, as though no group had been read. -/
def Obligations.LitReturnsTheLiteral : Prop :=
  ∀ (s : State) (g : Nat), (∀ data, decode 0x3000#16 data = .ok .lit) ∧
    (s.err = .none → s.LiteralAt s.pos g → exec .lit s = .next (s.answered (s.pos + 5 * g)
      { Resp.zero with value := BitVec.ofNat 64 (s.literalNat s.pos g), groups := g,
                       litovf := decide (2 ^ 64 ≤ s.literalNat s.pos g), nbits := 5 * g })) ∧
    (g ≤ 16 → s.literalNat s.pos g < 2 ^ 64) ∧
    (s.err = .none → s.LiteralCut s.pos g → exec .lit s = .next (s.failing .outOfBits))

/-- R124: LTYPE, `0x4000` with any DATA: the bit, or OUT_OF_BITS. -/
def Obligations.LtypeReturnsTheBit : Prop :=
  ∀ (s : State), (∀ data, decode 0x4000#16 data = .ok .ltype) ∧
    (s.err = .none → s.Readable s.pos 1 → exec .ltype s = .next (s.answered (s.pos + 1)
      { Resp.zero with value := BitVec.ofNat 64 (s.bitAt s.pos), ltype := BitVec.ofNat 1 (s.bitAt s.pos), nbits := 1 })) ∧
    (s.err = .none → 8 * s.len < s.pos + 1 → exec .ltype s = .next (s.failing .outOfBits))

/-- R125: COUNT, `0x5000` with any DATA: the 11-bit count, or OUT_OF_BITS. -/
def Obligations.CountReturnsTheCount : Prop :=
  ∀ (s : State), (∀ data, decode 0x5000#16 data = .ok .count) ∧
    (s.err = .none → s.Readable s.pos 11 → exec .count s = .next (s.answered (s.pos + 11)
      { Resp.zero with value := BitVec.ofNat 64 (s.fieldNat s.pos 11), nbits := 11 })) ∧
    (s.err = .none → 8 * s.len < s.pos + 11 → exec .count s = .next (s.failing .outOfBits))

/-- R126: TLEN, `0x6000` with any DATA: the 15-bit total length and TARGET, the exact sum, or OUT_OF_BITS. -/
def Obligations.TlenReturnsLengthAndTarget : Prop :=
  ∀ (s : State), (∀ data, decode 0x6000#16 data = .ok .tlen) ∧
    (s.err = .none → s.Readable s.pos 15 → exec .tlen s = .next (s.answered (s.pos + 15)
      { Resp.zero with value := BitVec.ofNat 64 (s.fieldNat s.pos 15),
                       target := s.pos + 15 + s.fieldNat s.pos 15, nbits := 15 })) ∧
    (s.err = .none → 8 * s.len < s.pos + 15 → exec .tlen s = .next (s.failing .outOfBits))

/-- R127: PKT, `0x7000` with any DATA: a literal packet whole, the head of a count-delimited operator, or the head of a
length-delimited one; and OUT_OF_BITS, with POS as it was, where the header, the literal, the length type, the count or
the total length does not fit. (`Loaded` keeps R62's fault out of the last clause.) -/
def Obligations.PktReturnsOnePacketHead : Prop :=
  ∀ s : State, (∀ data, decode 0x7000#16 data = .ok .pkt) ∧
    (∀ g, s.err = .none → s.Readable s.pos 6 → s.fieldNat (s.pos + 3) 3 = 4 → s.LiteralAt (s.pos + 6) g →
      exec .pkt s = .next (s.answered (s.pos + (6 + 5 * g))
        { Resp.zero with kind := .literal, version := BitVec.ofNat 3 (s.fieldNat s.pos 3), typeId := 4,
                         value := BitVec.ofNat 64 (s.literalNat (s.pos + 6) g), groups := g,
                         litovf := decide (2 ^ 64 ≤ s.literalNat (s.pos + 6) g), nbits := 6 + 5 * g })) ∧
    (s.err = .none → s.Readable s.pos 18 → s.fieldNat (s.pos + 3) 3 ≠ 4 → s.bitAt (s.pos + 6) = 1 →
      exec .pkt s = .next (s.answered (s.pos + 18)
        { Resp.zero with kind := .opCount, version := BitVec.ofNat 3 (s.fieldNat s.pos 3),
                         typeId := BitVec.ofNat 3 (s.fieldNat (s.pos + 3) 3), ltype := 1,
                         value := BitVec.ofNat 64 (s.fieldNat (s.pos + 7) 11), nbits := 18 })) ∧
    (s.err = .none → s.Readable s.pos 22 → s.fieldNat (s.pos + 3) 3 ≠ 4 → s.bitAt (s.pos + 6) = 0 →
      exec .pkt s = .next (s.answered (s.pos + 22)
        { Resp.zero with kind := .opLength, version := BitVec.ofNat 3 (s.fieldNat s.pos 3),
                         typeId := BitVec.ofNat 3 (s.fieldNat (s.pos + 3) 3), ltype := 0,
                         value := BitVec.ofNat 64 (s.fieldNat (s.pos + 7) 15),
                         target := s.pos + 22 + s.fieldNat (s.pos + 7) 15, nbits := 22 })) ∧
    (s.err = .none → s.Loaded →
      (8 * s.len < s.pos + 6 ∨
        (s.fieldNat (s.pos + 3) 3 = 4 ∧ ∃ g, s.LiteralCut (s.pos + 6) g) ∨
        (s.fieldNat (s.pos + 3) 3 ≠ 4 ∧
          (8 * s.len < s.pos + 7 ∨ (s.bitAt (s.pos + 6) = 1 ∧ 8 * s.len < s.pos + 18) ∨
            (s.bitAt (s.pos + 6) = 0 ∧ 8 * s.len < s.pos + 22)))) →
      exec .pkt s = .next (s.failing .outOfBits))

/-- R128: CHK, `0x8000` with DATA the target, answers 1 below the target and 0 at it, raises
MISMATCHED_SUBPACKET_LENGTH above it, and never changes POS. -/
def Obligations.ChkComparesPosWithTheTarget : Prop :=
  ∀ (target : Word64) (s : State), decode 0x8000#16 target = .ok (.chk target) ∧
    (s.err = .none → s.pos < target.toNat → exec (.chk target) s =
      .next { s with resp := { Resp.zero with value := 1 }, rspValid := true }) ∧
    (s.err = .none → s.pos = target.toNat → exec (.chk target) s =
      .next { s with resp := Resp.zero, rspValid := true }) ∧
    (s.err = .none → target.toNat < s.pos → exec (.chk target) s = .next (s.failing .mismatchedSubpacketLength))

/-- R161: START, `0x9000` with DATA the length, sets LEN, POS and ERR from every state, the error state included; a length
above BUF_BYTES raises BAD_COMMAND, and an earlier error then stays. -/
def Obligations.StartBeginsAStream : Prop :=
  ∀ (len : Word64) (s : State), decode 0x9000#16 len = .ok (.start len) ∧
    (len.toNat ≤ s.params.bufBytes → exec (.start len) s =
      .next { s with len := len.toNat, pos := 0, err := .none, resp := Resp.zero, rspValid := true }) ∧
    (s.params.bufBytes < len.toNat → exec (.start len) s = .next (s.failing .badCommand))

/-- R162: WRBUF, `0xA000` with DATA = (a << 8) | b, below BUF_BYTES completes from every state, the error state included:
the byte reads back, every other byte reads as before, and only BUF, its marks and RESP change; an address at or above
BUF_BYTES raises BAD_COMMAND, with BUF as it was. -/
def Obligations.WrbufWritesOneByte : Prop :=
  ∀ (addr : BitVec 56) (byte : Byte) (s : State),
    decode 0xA000#16 (BitVec.ofNat 64 (addr.toNat * 256 + byte.toNat)) = .ok (.wrbuf addr byte) ∧
    (wrbufAddr addr < s.params.bufBytes → ∃ t, exec (.wrbuf addr byte) s = .next t ∧
      t.readByte (wrbufAddr addr) = .ok byte ∧
      (∀ a, a ≠ wrbufAddr addr → t.readByte a = s.readByte a ∧ cellAt t.buf a = cellAt s.buf a) ∧
      t = { s with buf := t.buf, written := t.written, resp := Resp.zero, rspValid := true }) ∧
    (s.params.bufBytes ≤ wrbufAddr addr → exec (.wrbuf addr byte) s = .next (s.failing .badCommand))

/-! ### Errors, refusal and faults -/

/-- R207: while ERR != 0 every command but START and WRBUF is refused: RESP reports ERR with REFUSED = 1, and nothing else
changes. -/
def Obligations.CommandsAreRefusedWhileAnErrorIsLatched : Prop :=
  ∀ (i : Instr) (s : State), runsInError i = false → s.err ≠ .none →
    exec i s = .next { s with resp := { Resp.zero with status := s.err, refused := true }, rspValid := true }

/-- R205, R211, R27: REFUSED is 1 exactly when the command was not executed because ERR was nonzero; and where a response
carries an error, BUF, LEN and POS are exactly as before, ERR takes the error only if it was 0, and every other field of
RESP is 0. -/
def Obligations.ErrorsArePrecise : Prop :=
  ∀ (cmd : CmdWord) (data : Word64) (s t : State), accept cmd data s = .next t →
    (t.resp.refused = true ↔
      s.err ≠ .none ∧ ¬ (wellFormed cmd = true ∧ (opField cmd = 0x9#4 ∨ opField cmd = 0xA#4))) ∧
    (t.resp.status ≠ .none →
      t = { s with err := if s.err = .none then t.resp.status else s.err,
                   resp := { Resp.zero with status := t.resp.status, refused := t.resp.refused }, rspValid := true })

/-- R200, R210: which command raises which error (a response with STATUS != 0 and REFUSED = 0): OUT_OF_BITS the commands that
read the stream, MISMATCHED_SUBPACKET_LENGTH only CHK, BAD_COMMAND only START, WRBUF and a word that is not well-formed; so
no command can raise two different errors, and NOP raises none. -/
def Obligations.EachErrorHasItsCommands : Prop :=
  ∀ (cmd : CmdWord) (data : Word64) (s t : State), accept cmd data s = .next t → t.resp.refused = false →
    (t.resp.status = .outOfBits → ∃ i, decode cmd data = .ok i ∧ isExtraction i = true) ∧
    (t.resp.status = .mismatchedSubpacketLength → cmd = 0x8000#16) ∧
    (t.resp.status = .badCommand → cmd = 0x9000#16 ∨ cmd = 0xA000#16 ∨ wellFormed cmd = false)

/-- R214: an error in the error state can come only from a START or WRBUF with an out-of-range operand; it gives STATUS = 3 and
REFUSED = 0 and leaves ERR at its first code; and START and WRBUF are always available: with operands in range they
succeed from every state. -/
def Obligations.ErrorsDoNotNestOrLockUp : Prop :=
  (∀ (cmd : CmdWord) (data : Word64) (s t : State), accept cmd data s = .next t → s.err ≠ .none →
    t.resp.status ≠ .none → t.resp.refused = false →
    ((∃ len, decode cmd data = .ok (.start len) ∧ s.params.bufBytes < len.toNat) ∨
      (∃ addr byte, decode cmd data = .ok (.wrbuf addr byte) ∧ s.params.bufBytes ≤ wrbufAddr addr)) ∧
    t.resp.status = .badCommand ∧ t.err = s.err) ∧
  ∀ s : State,
    (∀ len, len.toNat ≤ s.params.bufBytes → ∃ t, exec (.start len) s = .next t ∧ t.resp.status = .none) ∧
    ∀ addr byte, wrbufAddr addr < s.params.bufBytes → ∃ t, exec (.wrbuf addr byte) s = .next t ∧ t.resp.status = .none

/-- R206, R208: once ERR is nonzero a step sets it to 0 exactly where the host's act is a well-formed START within
BUF_BYTES or a reset, and otherwise keeps it. -/
def Obligations.OnlyStartOrResetClearsErr : Prop :=
  ∀ s t : State, step s = .next t → s.err ≠ .none →
    (t.err = .none ↔
      ((∃ data rest, s.host = .command 0x9000#16 data :: rest ∧ data.toNat ≤ s.params.bufBytes) ∨
        (∃ rest, s.host = .reset :: rest) ∨ ∃ cmd data rest, s.host = .resetInFlight cmd data :: rest)) ∧
    (t.err ≠ .none → t.err = s.err)

/-- R62: a command that would read a byte that no WRBUF has written since reset ends in UninitRead of that byte and returns
nothing. A command of one read does so at the first such bit of its field; LIT in any group; PKT in the version, the type
id, any group of a literal, the length type, the count or the total length. And a command that succeeds has read written
bytes only. (The order of R62's fault and OUT_OF_BITS inside one command is log 13, DEDUCED.) -/
def Obligations.ReadingAnUnwrittenByteFaults : Prop :=
  (∀ (i : Instr) (n j : Nat) (s : State), singleRead i = some n → s.err = .none → s.FirstUnwritten s.pos n j →
    exec i s = .fault (.uninitRead ((s.pos + j) / 8))) ∧
  (∀ (g j : Nat) (s : State), s.err = .none → s.LiteralUnwritten s.pos g j →
    exec .lit s = .fault (.uninitRead ((s.pos + 5 * g + j) / 8))) ∧
  (∀ s : State, s.err = .none →
    (∀ j, s.FirstUnwritten s.pos 3 j → exec .pkt s = .fault (.uninitRead ((s.pos + j) / 8))) ∧
    (∀ j, s.Readable s.pos 3 → s.FirstUnwritten (s.pos + 3) 3 j →
      exec .pkt s = .fault (.uninitRead ((s.pos + 3 + j) / 8))) ∧
    (∀ g j, s.Readable s.pos 6 → s.fieldNat (s.pos + 3) 3 = 4 → s.LiteralUnwritten (s.pos + 6) g j →
      exec .pkt s = .fault (.uninitRead ((s.pos + 6 + 5 * g + j) / 8))) ∧
    (s.Readable s.pos 6 → s.fieldNat (s.pos + 3) 3 ≠ 4 → s.FirstUnwritten (s.pos + 6) 1 0 →
      exec .pkt s = .fault (.uninitRead ((s.pos + 6) / 8))) ∧
    (∀ j, s.Readable s.pos 7 → s.fieldNat (s.pos + 3) 3 ≠ 4 → s.bitAt (s.pos + 6) = 1 →
      s.FirstUnwritten (s.pos + 7) 11 j → exec .pkt s = .fault (.uninitRead ((s.pos + 7 + j) / 8))) ∧
    (∀ j, s.Readable s.pos 7 → s.fieldNat (s.pos + 3) 3 ≠ 4 → s.bitAt (s.pos + 6) = 0 →
      s.FirstUnwritten (s.pos + 7) 15 j → exec .pkt s = .fault (.uninitRead ((s.pos + 7 + j) / 8)))) ∧
  (∀ (i : Instr) (s t : State), isExtraction i = true → exec i s = .next t → t.resp.status = .none →
    s.Written s.pos (t.pos - s.pos))

/-- R62: UninitRead is the only way a command stops: it names a byte below LEN that is not known, and only a command that
reads the stream meets it, with ERR = 0; the model refuses no command. -/
def Obligations.OnlyUninitReadStopsACommand : Prop :=
  ∀ (i : Instr) (s : State),
    (∀ f, exec i s = .fault f →
      isExtraction i = true ∧ s.err = .none ∧ ∃ a, f = .uninitRead a ∧ a < s.len ∧ s.known a = false) ∧
    ∀ r, exec i s ≠ .refused r

/-- R180, R240: where the host has written every byte of the stream, every command answers with a next state. -/
def Obligations.EveryCommandAnswersOnALoadedStream : Prop :=
  ∀ (i : Instr) (s : State), s.Loaded → ∃ t, exec i s = .next t

/-! ### Frames and whole-machine rules -/

/-- R23, R34: every command but START leaves POS where it is or moves it forward, by exactly NBITS; and NBITS is 0 after a
failed or refused command and after NOP, CHK, START and WRBUF. -/
def Obligations.PosAdvancesByNbitsBetweenStarts : Prop :=
  ∀ (i : Instr) (s t : State), exec i s = .next t →
    ((∀ len, i ≠ .start len) → t.pos = s.pos + t.resp.nbits) ∧
    (t.resp.status ≠ .none ∨ isExtraction i = false → t.resp.nbits = 0)

/-- R21, R22, R60, R120: what READ, HDR, LIT, LTYPE, COUNT, TLEN and PKT leave unchanged: BUF and every byte's reading,
LEN, and ERR on success. -/
def Obligations.ExtractionFrame : Prop :=
  ∀ (i : Instr) (s t : State), isExtraction i = true → exec i s = .next t →
    t = { s with pos := t.pos, err := t.err, resp := t.resp, rspValid := true } ∧
      (∀ a, t.readByte a = s.readByte a) ∧ (t.resp.status = .none → t.err = s.err) ∧
      (t.resp.status ≠ .none → t.pos = s.pos)

/-- R160, R128: what NOP and CHK leave unchanged: everything but RESP, and ERR where CHK raises. -/
def Obligations.NopAndChkFrame : Prop :=
  ∀ (i : Instr) (s t : State), (i = .nop ∨ ∃ target, i = .chk target) → exec i s = .next t →
    t = { s with err := t.err, resp := t.resp, rspValid := true } ∧ (∀ a, t.readByte a = s.readByte a) ∧
      (t.resp.status = .none → t.err = s.err)

/-- R161: what START leaves unchanged: BUF, and everything but LEN, POS, ERR and RESP. -/
def Obligations.StartFrame : Prop :=
  ∀ (len : Word64) (s t : State), exec (.start len) s = .next t →
    t = { s with len := t.len, pos := t.pos, err := t.err, resp := t.resp, rspValid := true } ∧
      ∀ a, t.readByte a = s.readByte a

/-- R162: what WRBUF leaves unchanged, on success and on failure: POS, LEN, and every byte but the one addressed; on
success ERR too, on failure every byte. -/
def Obligations.WrbufFrame : Prop :=
  ∀ (addr : BitVec 56) (byte : Byte) (s t : State), exec (.wrbuf addr byte) s = .next t →
    t = { s with buf := t.buf, written := t.written, err := t.err, resp := t.resp, rspValid := true } ∧
      (∀ a, a ≠ wrbufAddr addr → t.readByte a = s.readByte a) ∧ (t.resp.status = .none → t.err = s.err) ∧
      (t.resp.status ≠ .none → t.buf = s.buf ∧ t.written = s.written)

/-- R28-R36, R30: which command can leave which field of RESP nonzero. -/
def Obligations.UnnamedResponseFieldsAreZero : Prop :=
  ∀ (i : Instr) (s t : State), exec i s = .next t →
    (i ≠ .hdr → i ≠ .pkt → t.resp.version = 0 ∧ t.resp.typeId = 0) ∧
    (i ≠ .pkt → t.resp.kind = .none) ∧
    (i ≠ .ltype → i ≠ .pkt → t.resp.ltype = 0) ∧
    (i ≠ .tlen → t.resp.kind ≠ .opLength → t.resp.target = 0) ∧
    (i ≠ .lit → t.resp.kind ≠ .literal → t.resp.groups = 0 ∧ t.resp.litovf = false) ∧
    ((i = .nop ∨ (∃ target, i = .chk target) ∨ (∃ len, i = .start len) ∨ ∃ addr byte, i = .wrbuf addr byte) →
      t.resp.nbits = 0) ∧
    (i = .nop ∨ (∃ len, i = .start len) ∨ (∃ addr byte, i = .wrbuf addr byte) → t.resp.value = 0)

/-! ### Equivalences of command sequences -/

/-- R101: two READs see the bits of one wide READ, in order; and where the wide READ would run off the end, the second
narrow READ fails too, with POS after the first field. -/
def Obligations.ReadsCompose : Prop :=
  ∀ (w1 w2 w : BitVec 6) (s t1 t2 : State), w.toNat + 1 = (w1.toNat + 1) + (w2.toNat + 1) → s.err = .none →
    exec (.read w1) s = .next t1 → t1.resp.status = .none → exec (.read w2) t1 = .next t2 →
    (t2.resp.status = .none → ∃ t, exec (.read w) s = .next t ∧ t.resp.status = .none ∧ t.pos = t2.pos ∧
      t.pos = s.pos + (w1.toNat + 1) + (w2.toNat + 1) ∧
      t.resp.value = (t1.resp.value <<< (w2.toNat + 1)) ||| t2.resp.value) ∧
    (8 * s.len < s.pos + (w.toNat + 1) → t2.pos = s.pos + (w1.toNat + 1) ∧ t2.err = .outOfBits ∧
      ∃ t, exec (.read w) s = .next t ∧ t.pos = s.pos ∧ t.err = .outOfBits)

/-- R186: a PKT that succeeds equals HDR and LIT, or HDR, LTYPE and COUNT or TLEN, with the fields merged and the same POS
after. -/
def Obligations.GranularFormEqualsPkt : Prop :=
  ∀ s t : State, exec .pkt s = .next t → t.resp.status = .none →
    ∃ h, exec .hdr s = .next h ∧ h.resp.status = .none ∧ h.resp.version = t.resp.version ∧
      h.resp.typeId = t.resp.typeId ∧
      ((h.resp.typeId = 4 ∧ t.resp.kind = .literal ∧ ∃ l, exec .lit h = .next l ∧ l.resp.status = .none ∧
          l.resp.value = t.resp.value ∧ l.resp.groups = t.resp.groups ∧ l.resp.litovf = t.resp.litovf ∧ l.pos = t.pos) ∨
        (h.resp.typeId ≠ 4 ∧ ∃ a, exec .ltype h = .next a ∧ a.resp.status = .none ∧ a.resp.ltype = t.resp.ltype ∧
          ((a.resp.value = 1 ∧ t.resp.kind = .opCount ∧ ∃ c, exec .count a = .next c ∧ c.resp.status = .none ∧
              c.resp.value = t.resp.value ∧ c.pos = t.pos) ∨
            (a.resp.value = 0 ∧ t.resp.kind = .opLength ∧ ∃ c, exec .tlen a = .next c ∧ c.resp.status = .none ∧
              c.resp.value = t.resp.value ∧ c.resp.target = t.resp.target ∧ c.pos = t.pos))))

/-- R78, R233: the commands of `LOAD b0 b1 ...` all succeed, from every state, and leave the bytes readable as the stream
from bit 0 with ERR clear. -/
def Obligations.LoadLeavesTheBytesAsTheStream : Prop :=
  ∀ (s : State) (bytes : List Nat) (cmds : List Instr), assembleLine s.params (.load bytes) = some cmds →
    ∃ t, execAll cmds s = .next t ∧ t.len = bytes.length ∧ t.pos = 0 ∧ t.err = .none ∧ t.resp = Resp.zero ∧ t.Loaded ∧
      ∀ i b, bytes[i]? = some b → t.readByte i = .ok (BitVec.ofNat 8 b)

/-- R77: what an assembler encodes for READ, CHK, START and WRBUF, and what it refuses. -/
def Obligations.AssemblerEncodesTheOperands : Prop :=
  ∀ p : Params,
    (∀ n, (1 ≤ n ∧ n ≤ 64 → (assembleLine p (.read n)).map (·.map encode) = some [(BitVec.ofNat 16 (0x1000 + (n - 1)), 0)]) ∧
      (n < 1 ∨ 64 < n → assembleLine p (.read n) = none)) ∧
    (∀ t, t < 2 ^ 64 → (assembleLine p (.chk t)).map (·.map encode) = some [(0x8000#16, BitVec.ofNat 64 t)]) ∧
    (∀ len, len < 2 ^ 64 → (assembleLine p (.start len)).map (·.map encode) = some [(0x9000#16, BitVec.ofNat 64 len)]) ∧
    (∀ a b, (a < 2 ^ 56 ∧ b ≤ 255 →
        (assembleLine p (.wrbuf a b)).map (·.map encode) = some [(0xA000#16, BitVec.ofNat 64 (a * 256 + b))]) ∧
      (2 ^ 56 ≤ a ∨ 255 < b → assembleLine p (.wrbuf a b) = none))

/-! ### The pins, one clock edge at a time -/

/-- R39, R9, R10: a command accepted at an edge ends LATENCY edges later, whatever the pins do meanwhile but rst, with
exactly the effect of one accepted command. -/
def Obligations.ClockedCommandHasTheEffectOfOneStep : Prop :=
  ∀ (latency : Nat) (c : Clocked) (p : Pins) (rest : List Pins), 1 ≤ latency → c.inFlight = none → p.rst = false →
    p.cmdValid = true → rest.length = latency → (∀ q ∈ rest, q.rst = false) →
    clockRun latency (p :: rest) c = endCommand (accept p.cmdWord p.cmdData c.core.idle)

/-- R39, R235: while a command is in flight, cmd_ready is low and the outputs hold their values; and an edge at which the
command does not end accepts nothing. -/
def Obligations.OutputsHoldWhileACommandIsInFlight : Prop :=
  ∀ (latency : Nat) (c : Clocked) (p : Pins) (f : InFlight) (rst : Bool), c.inFlight = some f → p.rst = false →
    1 < f.left →
    c.cmdReady rst = false ∧
      ∃ c', clockEdge latency p c = .next c' ∧ c'.core.outputs = c.core.outputs ∧ c'.core = c.core ∧
        c'.inFlight = some { f with left := f.left - 1 }

/-- R39: rsp_valid is high for one cycle: at the next edge without rst it falls, whether or not a command is accepted there.
That cmd_ready rises in the same cycle as rsp_valid, so that a command is accepted at the edge that ends that cycle, is
the model's choice: the reading of R39 in log 6, DESIGN CHOICE. -/
def Obligations.ResponsePulseLastsOneCycle : Prop :=
  ∀ (latency : Nat) (c c1 : Clocked) (p q : Pins) (f : InFlight), c.inFlight = some f → f.left ≤ 1 → p.rst = false →
    q.rst = false → clockEdge latency p c = .next c1 →
    c1.rspValid false = true ∧ c1.cmdReady false = true ∧
      ∃ c2, clockEdge latency q c1 = .next c2 ∧ c2.rspValid false = false ∧ c2.cmdReady false = !q.cmdValid ∧
        c2.core.resp = c1.core.resp

/-- R230, R231, R42: at an edge with rst = 1 POS, LEN, ERR and RESP become 0 and, with no command in flight, BUF stays;
cmd_ready and rsp_valid are low while rst is 1 (R230), nothing stays in flight (R231), and cmd_ready is 1 after it (R42).
That the state is the one the transaction model's reset acts leave compares two constructions of the model: the clock-edge
view (log 6, DESIGN CHOICE) and the reset acts, each a whole episode of rst (log 11, DESIGN CHOICE). -/
def Obligations.ClockedResetIsTheResetAct : Prop :=
  ∀ (latency : Nat) (c : Clocked) (p : Pins), p.rst = true →
    ∃ c', clockEdge latency p c = .next c' ∧ c'.inFlight = none ∧ c'.core.pos = 0 ∧ c'.core.len = 0 ∧
      c'.core.err = .none ∧ c'.core.resp = Resp.zero ∧
      c'.cmdReady true = false ∧ c'.rspValid true = false ∧ c'.cmdReady false = true ∧ c'.rspValid false = false ∧
      (c.inFlight = none → c'.core.buf = c.core.buf ∧ .next c'.core = perform .reset c.core) ∧
      ∀ f, c.inFlight = some f → .next c'.core = perform (.resetInFlight f.cmd f.data) c.core

/-! ### A whole decode -/

/-- R240: a whole decode of a loaded stream ends: it returns a packet, or fails with an error code. -/
def Obligations.WholeDecodeEnds : Prop :=
  ∀ s : State, s.Loaded →
    (∃ p t, decodeStream s = .done p t) ∨ ∃ e t, e ≠ ErrCode.none ∧ decodeStream s = .failed e t

/-- R188: the nesting depth of a decoded packet is bounded by the length of the stream. -/
def Obligations.NestingDepthIsBounded : Prop :=
  ∀ (s t : State) (p : Packet) (tokens : List Resp), decodeStream s = .done (p, tokens) t →
    11 ≤ 8 * s.len ∧ p.depth ≤ 1 + (8 * s.len - 11) / 18 ∧ p.depth ≤ 8 * s.len / 11

/-- R187: the tree of a successful decode can be rebuilt from its token stream alone, and the position after each PKT is
its position before plus its NBITS. The premise keeps every target within the 64 bits of CHK's DATA. -/
def Obligations.TokenStreamRebuildsTheTree : Prop :=
  ∀ (s t : State) (p : Packet) (tokens : List Resp), 8 * s.len + 32767 < 2 ^ 64 →
    decodeStream s = .done (p, tokens) t → rebuildPacket (decodeFuel s) s.pos tokens = some (p, t.pos, [])

/-- R184: a whole decode is the load, START, the skip and one decode. From every state, where the bytes fit: a skip that
runs past the end fails with OUT_OF_BITS; otherwise the decode is `DecodePacket()` once, in a state whose stream is
exactly the bytes, all written, with POS at the skipped bit and ERR clear. (The split of the skip into READs is log 20,
DESIGN CHOICE; it shows in no clause.) -/
def Obligations.WholeDecodeIsLoadSkipAndOneDecode : Prop :=
  ∀ (bytes : List Byte) (skip : Nat) (s : State),
    (bytes.length ≤ s.params.bufBytes → bytes.length ≤ 2 ^ 56 →
      ∃ d, wholeDecode bytes skip s = some d ∧
        (8 * bytes.length < skip → ∃ t, d = .failed .outOfBits t) ∧
        (skip ≤ 8 * bytes.length → ∃ t, d = decodeStream t ∧ t.len = bytes.length ∧ t.pos = skip ∧ t.err = .none ∧
          t.Loaded ∧ ∀ i b, bytes[i]? = some b → t.readByte i = .ok b)) ∧
    (s.params.bufBytes < bytes.length → wholeDecode bytes skip s = none)

/-- R184: decoding is a function of the byte buffer and the starting bit offset. Two whole decodes of the same bytes from the
same offset, in any two states of any two BCXs that the bytes fit, return the same packet and tokens or fail with the same
code, with the same stream, LEN, POS, ERR and RESP after them. -/
def Obligations.DecodingIsAFunctionOfBytesAndOffset : Prop :=
  ∀ (bytes : List Byte) (skip : Nat) (s t : State) (d e : Decoded (Packet × List Resp)),
    wholeDecode bytes skip s = some d → wholeDecode bytes skip t = some e → d.Alike e
end

