-- ==== Sys2Proof/Laws/State.lean ====
section
/-! SUPPORT. One lemma per field of State per named update, so that no later proof unfolds a record update. -/

namespace Sys2Proof.Machine

variable (s : State)

/-! ### writeByte -/

@[simp] theorem State.writeByte_params (a : Nat) (b : BitVec 8) : (s.writeByte a b).params = s.params := rfl
@[simp] theorem State.writeByte_buf (a : Nat) (b : BitVec 8) : (s.writeByte a b).buf = setCell s.buf a b := rfl
@[simp] theorem State.writeByte_written (a : Nat) (b : BitVec 8) : (s.writeByte a b).written = setMark s.written a := rfl
@[simp] theorem State.writeByte_len (a : Nat) (b : BitVec 8) : (s.writeByte a b).len = s.len := rfl
@[simp] theorem State.writeByte_pos (a : Nat) (b : BitVec 8) : (s.writeByte a b).pos = s.pos := rfl
@[simp] theorem State.writeByte_err (a : Nat) (b : BitVec 8) : (s.writeByte a b).err = s.err := rfl
@[simp] theorem State.writeByte_resp (a : Nat) (b : BitVec 8) : (s.writeByte a b).resp = s.resp := rfl
@[simp] theorem State.writeByte_rspValid (a : Nat) (b : BitVec 8) : (s.writeByte a b).rspValid = s.rspValid := rfl
@[simp] theorem State.writeByte_draws (a : Nat) (b : BitVec 8) : (s.writeByte a b).draws = s.draws := rfl
@[simp] theorem State.writeByte_host (a : Nat) (b : BitVec 8) : (s.writeByte a b).host = s.host := rfl

/-! ### setPos -/

@[simp] theorem State.setPos_params (p : Nat) : (s.setPos p).params = s.params := rfl
@[simp] theorem State.setPos_buf (p : Nat) : (s.setPos p).buf = s.buf := rfl
@[simp] theorem State.setPos_written (p : Nat) : (s.setPos p).written = s.written := rfl
@[simp] theorem State.setPos_len (p : Nat) : (s.setPos p).len = s.len := rfl
@[simp] theorem State.setPos_pos (p : Nat) : (s.setPos p).pos = p := rfl
@[simp] theorem State.setPos_err (p : Nat) : (s.setPos p).err = s.err := rfl
@[simp] theorem State.setPos_resp (p : Nat) : (s.setPos p).resp = s.resp := rfl
@[simp] theorem State.setPos_rspValid (p : Nat) : (s.setPos p).rspValid = s.rspValid := rfl
@[simp] theorem State.setPos_draws (p : Nat) : (s.setPos p).draws = s.draws := rfl
@[simp] theorem State.setPos_host (p : Nat) : (s.setPos p).host = s.host := rfl

/-! ### writeResp -/

@[simp] theorem State.writeResp_params (r : Resp) : (s.writeResp r).params = s.params := rfl
@[simp] theorem State.writeResp_buf (r : Resp) : (s.writeResp r).buf = s.buf := rfl
@[simp] theorem State.writeResp_written (r : Resp) : (s.writeResp r).written = s.written := rfl
@[simp] theorem State.writeResp_len (r : Resp) : (s.writeResp r).len = s.len := rfl
@[simp] theorem State.writeResp_pos (r : Resp) : (s.writeResp r).pos = s.pos := rfl
@[simp] theorem State.writeResp_err (r : Resp) : (s.writeResp r).err = s.err := rfl
@[simp] theorem State.writeResp_resp (r : Resp) : (s.writeResp r).resp = r := rfl
@[simp] theorem State.writeResp_rspValid (r : Resp) : (s.writeResp r).rspValid = true := rfl
@[simp] theorem State.writeResp_draws (r : Resp) : (s.writeResp r).draws = s.draws := rfl
@[simp] theorem State.writeResp_host (r : Resp) : (s.writeResp r).host = s.host := rfl

/-! ### beginStream -/

@[simp] theorem State.beginStream_params (n : Nat) : (s.beginStream n).params = s.params := rfl
@[simp] theorem State.beginStream_buf (n : Nat) : (s.beginStream n).buf = s.buf := rfl
@[simp] theorem State.beginStream_written (n : Nat) : (s.beginStream n).written = s.written := rfl
@[simp] theorem State.beginStream_len (n : Nat) : (s.beginStream n).len = n := rfl
@[simp] theorem State.beginStream_pos (n : Nat) : (s.beginStream n).pos = 0 := rfl
@[simp] theorem State.beginStream_err (n : Nat) : (s.beginStream n).err = .none := rfl
@[simp] theorem State.beginStream_resp (n : Nat) : (s.beginStream n).resp = s.resp := rfl
@[simp] theorem State.beginStream_rspValid (n : Nat) : (s.beginStream n).rspValid = s.rspValid := rfl
@[simp] theorem State.beginStream_draws (n : Nat) : (s.beginStream n).draws = s.draws := rfl
@[simp] theorem State.beginStream_host (n : Nat) : (s.beginStream n).host = s.host := rfl

/-! ### raise -/

@[simp] theorem State.raise_params (e : ErrCode) : (s.raise e).params = s.params := rfl
@[simp] theorem State.raise_buf (e : ErrCode) : (s.raise e).buf = s.buf := rfl
@[simp] theorem State.raise_written (e : ErrCode) : (s.raise e).written = s.written := rfl
@[simp] theorem State.raise_len (e : ErrCode) : (s.raise e).len = s.len := rfl
@[simp] theorem State.raise_pos (e : ErrCode) : (s.raise e).pos = s.pos := rfl
@[simp] theorem State.raise_err (e : ErrCode) : (s.raise e).err = if s.err = .none then e else s.err := rfl
@[simp] theorem State.raise_resp (e : ErrCode) : (s.raise e).resp = { Resp.zero with status := e } := rfl
@[simp] theorem State.raise_rspValid (e : ErrCode) : (s.raise e).rspValid = true := rfl
@[simp] theorem State.raise_draws (e : ErrCode) : (s.raise e).draws = s.draws := rfl
@[simp] theorem State.raise_host (e : ErrCode) : (s.raise e).host = s.host := rfl

/-! ### refuse -/

@[simp] theorem State.refuse_params : (s.refuse).params = s.params := rfl
@[simp] theorem State.refuse_buf : (s.refuse).buf = s.buf := rfl
@[simp] theorem State.refuse_written : (s.refuse).written = s.written := rfl
@[simp] theorem State.refuse_len : (s.refuse).len = s.len := rfl
@[simp] theorem State.refuse_pos : (s.refuse).pos = s.pos := rfl
@[simp] theorem State.refuse_err : (s.refuse).err = s.err := rfl
@[simp] theorem State.refuse_resp : (s.refuse).resp = { Resp.zero with status := s.err, refused := true } := rfl
@[simp] theorem State.refuse_rspValid : (s.refuse).rspValid = true := rfl
@[simp] theorem State.refuse_draws : (s.refuse).draws = s.draws := rfl
@[simp] theorem State.refuse_host : (s.refuse).host = s.host := rfl

/-! ### hardReset -/

@[simp] theorem State.hardReset_params : (s.hardReset).params = s.params := rfl
@[simp] theorem State.hardReset_buf : (s.hardReset).buf = s.buf := rfl
@[simp] theorem State.hardReset_written : (s.hardReset).written = [] := rfl
@[simp] theorem State.hardReset_len : (s.hardReset).len = 0 := rfl
@[simp] theorem State.hardReset_pos : (s.hardReset).pos = 0 := rfl
@[simp] theorem State.hardReset_err : (s.hardReset).err = .none := rfl
@[simp] theorem State.hardReset_resp : (s.hardReset).resp = Resp.zero := rfl
@[simp] theorem State.hardReset_rspValid : (s.hardReset).rspValid = false := rfl
@[simp] theorem State.hardReset_draws : (s.hardReset).draws = s.draws := rfl
@[simp] theorem State.hardReset_host : (s.hardReset).host = s.host := rfl

/-! ### idle -/

@[simp] theorem State.idle_params : (s.idle).params = s.params := rfl
@[simp] theorem State.idle_buf : (s.idle).buf = s.buf := rfl
@[simp] theorem State.idle_written : (s.idle).written = s.written := rfl
@[simp] theorem State.idle_len : (s.idle).len = s.len := rfl
@[simp] theorem State.idle_pos : (s.idle).pos = s.pos := rfl
@[simp] theorem State.idle_err : (s.idle).err = s.err := rfl
@[simp] theorem State.idle_resp : (s.idle).resp = s.resp := rfl
@[simp] theorem State.idle_rspValid : (s.idle).rspValid = false := rfl
@[simp] theorem State.idle_draws : (s.idle).draws = s.draws := rfl
@[simp] theorem State.idle_host : (s.idle).host = s.host := rfl

/-! ### offer -/

@[simp] theorem State.offer_params (c : BitVec 16) (d : BitVec 64) : (s.offer c d).params = s.params := rfl
@[simp] theorem State.offer_buf (c : BitVec 16) (d : BitVec 64) : (s.offer c d).buf = s.buf := rfl
@[simp] theorem State.offer_written (c : BitVec 16) (d : BitVec 64) : (s.offer c d).written = s.written := rfl
@[simp] theorem State.offer_len (c : BitVec 16) (d : BitVec 64) : (s.offer c d).len = s.len := rfl
@[simp] theorem State.offer_pos (c : BitVec 16) (d : BitVec 64) : (s.offer c d).pos = s.pos := rfl
@[simp] theorem State.offer_err (c : BitVec 16) (d : BitVec 64) : (s.offer c d).err = s.err := rfl
@[simp] theorem State.offer_resp (c : BitVec 16) (d : BitVec 64) : (s.offer c d).resp = s.resp := rfl
@[simp] theorem State.offer_rspValid (c : BitVec 16) (d : BitVec 64) : (s.offer c d).rspValid = s.rspValid := rfl
@[simp] theorem State.offer_draws (c : BitVec 16) (d : BitVec 64) : (s.offer c d).draws = s.draws := rfl
@[simp] theorem State.offer_host (c : BitVec 16) (d : BitVec 64) : (s.offer c d).host = .command c d :: s.host := rfl

end Sys2Proof.Machine
end

