-- ==== Sys2Proof/Laws/Memory.lean ====
section
/-! SUPPORT. What reading and writing BUF do: read after write, and the canonical form kept. -/

namespace Sys2Proof.Machine

/-! ### Cells -/

theorem cellAt_setCell_self (m : List (Nat × BitVec 8)) (i : Nat) (v : BitVec 8) :
    cellAt (setCell m i v) i = some v := by
  fun_induction setCell m i v <;> simp_all [cellAt]
  intro h; omega

theorem cellAt_setCell_ne (m : List (Nat × BitVec 8)) {i j : Nat} (v : BitVec 8) (h : j ≠ i) :
    cellAt (setCell m i v) j = cellAt m j := by
  fun_induction setCell m i v with
  | case1 => simp [cellAt, h.symm]
  | case2 => simp [cellAt, h.symm]
  | case3 b rest v _ => simp [cellAt, h.symm]
  | case4 a b rest i v _ _ ih => simp [cellAt, ih h]

theorem cellAt_setCell (m : List (Nat × BitVec 8)) (i j : Nat) (v : BitVec 8) :
    cellAt (setCell m i v) j = if j = i then some v else cellAt m j := by
  split
  · subst_vars; exact cellAt_setCell_self _ _ _
  · exact cellAt_setCell_ne _ _ ‹_›

/-! ### Marks -/

@[simp] theorem mem_setMark (l : List Nat) (i j : Nat) : j ∈ setMark l i ↔ j = i ∨ j ∈ l := by
  fun_induction setMark l i <;> simp_all
  tauto

/-! ### The canonical form -/

theorem rising_cons (a : Nat) (l : List Nat) : rising (a :: l) = true ↔ (∀ b ∈ l.head?, a < b) ∧ rising l = true := by
  cases l <;> simp [rising]

theorem head_setMark (l : List Nat) (i b : Nat) (h : b ∈ (setMark l i).head?) : b = i ∨ b ∈ l.head? := by
  revert h
  fun_cases setMark l i <;> simp_all

theorem setMark_rising (l : List Nat) (i : Nat) (h : rising l = true) : rising (setMark l i) = true := by
  fun_induction setMark l i with
  | case1 => rfl
  | case2 a rest i hlt => simp [rising, hlt, h]
  | case3 => exact h
  | case4 a rest i hlt hne ih =>
    rw [rising_cons] at h ⊢
    refine ⟨fun b hb => ?_, ih h.2⟩
    rcases head_setMark _ _ _ hb with rfl | hb
    · omega
    · exact h.1 b hb

theorem setCell_fst (m : List (Nat × BitVec 8)) (i : Nat) (v : BitVec 8) :
    (setCell m i v).map Prod.fst = setMark (m.map Prod.fst) i := by
  fun_induction setCell m i v <;> simp_all [setMark]

/-- Writing a byte keeps BUF's canonical form. -/
theorem setCell_wf (m : List (Nat × BitVec 8)) (i : Nat) (v : BitVec 8) (h : Memory.wf m = true) :
    Memory.wf (setCell m i v) = true := by
  unfold Memory.wf
  rw [setCell_fst]
  exact setMark_rising _ _ h

/-! ### Bytes as a stream read sees them -/

theorem readByte_known (s : State) (i : Nat) (h : s.known i = true) :
    s.readByte i = .ok ((cellAt s.buf i).getD 0) := by
  simp only [State.known, Bool.and_eq_true] at h
  obtain ⟨b, hb⟩ := Option.isSome_iff_exists.mp h.2
  rw [State.readByte, if_pos h.1, hb]; rfl

theorem readByte_unknown (s : State) (i : Nat) (h : s.known i = false) :
    s.readByte i = .error (.uninitRead i) := by
  unfold State.readByte
  simp only [State.known, Bool.and_eq_false_iff] at h
  split
  · rcases h with h | h
    · simp_all
    · simp at h; simp [h]
  · rfl

theorem readByte_congr (s t : State) (hb : t.buf = s.buf) (hw : t.written = s.written) (i : Nat) :
    t.readByte i = s.readByte i := by
  simp [State.readByte, hb, hw]

theorem known_congr (s t : State) (hb : t.buf = s.buf) (hw : t.written = s.written) (i : Nat) :
    t.known i = s.known i := by
  simp [State.known, hb, hw]

theorem readByte_writeByte_self (s : State) (a : Nat) (b : BitVec 8) : (s.writeByte a b).readByte a = .ok b := by
  simp [State.readByte, cellAt_setCell_self]

theorem readByte_writeByte_ne (s : State) {a i : Nat} (b : BitVec 8) (h : i ≠ a) :
    (s.writeByte a b).readByte i = s.readByte i := by
  simp [State.readByte, cellAt_setCell_ne _ _ h, h]

end Sys2Proof.Machine
end

