-- ==== Sys2Proof/Laws/Stream.lean ====
section
/-! SUPPORT. What the stream reads return: `Bits` and `LitLoop` against the plain numbers of Safety.lean. -/

namespace Sys2Proof.Machine

variable (s : State)

/-! ### Numbers of bits -/

/-- Shifting in a value that fits the freed bits adds it. -/
theorem toNat_shiftLeft_or (v x : BitVec 64) (k : Nat) (h : x.toNat < 2 ^ k) :
    (v <<< k ||| x).toNat = (v.toNat * 2 ^ k + x.toNat) % 2 ^ 64 := by
  have hx : x.toNat = x.toNat % 2 ^ 64 := (Nat.mod_eq_of_lt x.isLt).symm
  rw [BitVec.toNat_or, BitVec.toNat_shiftLeft, hx, ← Nat.or_mod_two_pow, ← Nat.shiftLeft_add_eq_or_of_lt h,
    Nat.shiftLeft_eq, ← hx]

theorem bitAt_lt (k : Nat) : s.bitAt k < 2 := Nat.mod_lt _ (by omega)

theorem fieldNat_lt (p n : Nat) : s.fieldNat p n < 2 ^ n := by
  induction n with
  | zero => simp [State.fieldNat]
  | succ n ih => have := bitAt_lt s (p + n); simp only [State.fieldNat, Nat.pow_succ]; omega

/-- The first bit of a field is its most significant. -/
theorem fieldNat_succ_left (p n : Nat) : s.fieldNat p (n + 1) = s.bitAt p * 2 ^ n + s.fieldNat (p + 1) n := by
  induction n with
  | zero => simp [State.fieldNat]
  | succ n ih =>
    have e : p + 1 + n = p + (n + 1) := by omega
    rw [State.fieldNat, ih, State.fieldNat, e, Nat.pow_succ]
    ring

theorem fieldNat_add (p m n : Nat) : s.fieldNat p (m + n) = s.fieldNat p m * 2 ^ n + s.fieldNat (p + m) n := by
  induction n with
  | zero => simp [State.fieldNat]
  | succ n ih =>
    rw [← Nat.add_assoc, State.fieldNat, ih, State.fieldNat, Nat.pow_succ, Nat.add_assoc p m n]
    ring

/-! ### One bit -/

theorem streamBit_known (k : Nat) (h : s.known (k / 8) = true) :
    s.streamBit k = .ok (BitVec.ofNat 1 (s.bitAt k)) := by
  unfold State.streamBit
  rw [readByte_known s _ h]
  refine congrArg Except.ok (BitVec.eq_of_toNat_eq ?_)
  simp [bitOfByte, State.bitAt, Nat.shiftRight_eq_div_pow]

theorem streamBit_unknown (k : Nat) (h : s.known (k / 8) = false) :
    s.streamBit k = .error (.uninitRead (k / 8)) := by
  unfold State.streamBit
  rw [readByte_unknown s _ h]; rfl

/-! ### The loop of `Bits` -/

theorem written_succ (p n : Nat) :
    s.Written p (n + 1) ↔ s.known (p / 8) = true ∧ s.Written (p + 1) n := by
  constructor
  · intro h
    refine ⟨by simpa using h 0 (by omega), fun k hk => ?_⟩
    have := h (k + 1) (by omega)
    rwa [show p + 1 + k = p + (k + 1) by omega]
  · rintro ⟨h0, h⟩ k hk
    cases k with
    | zero => simpa using h0
    | succ k => rw [show p + (k + 1) = p + 1 + k by omega]; exact h k (by omega)

theorem written_add (p m n : Nat) : s.Written p (m + n) ↔ s.Written p m ∧ s.Written (p + m) n := by
  constructor
  · intro h
    refine ⟨fun k hk => h k (by omega), fun k hk => ?_⟩
    rw [Nat.add_assoc]; exact h _ (by omega)
  · rintro ⟨h1, h2⟩ k hk
    by_cases hm : k < m
    · exact h1 k hm
    · have := h2 (k - m) (by omega)
      rwa [show p + m + (k - m) = p + k by omega] at this

theorem readable_add (p m n : Nat) : s.Readable p (m + n) ↔ s.Readable p m ∧ s.Readable (p + m) n := by
  unfold State.Readable
  rw [written_add]
  constructor
  · rintro ⟨h, h1, h2⟩; exact ⟨⟨by omega, h1⟩, by omega, h2⟩
  · rintro ⟨⟨_, h1⟩, h, h2⟩; exact ⟨by omega, h1, h2⟩

theorem bitsLoop_written (n p : Nat) (v : BitVec 64) (h : s.Written p n) :
    s.bitsLoop n p v = .ok (BitVec.ofNat 64 (v.toNat * 2 ^ n + s.fieldNat p n)) := by
  induction n generalizing p v with
  | zero => simp [State.bitsLoop, State.fieldNat]
  | succ n ih =>
    obtain ⟨h0, h1⟩ := (written_succ s p n).mp h
    unfold State.bitsLoop
    rw [streamBit_known s p h0]
    change s.bitsLoop n (p + 1) _ = _
    rw [ih _ _ h1]
    have hb := bitAt_lt s p
    refine congrArg Except.ok (BitVec.eq_of_toNat_eq ?_)
    have hx : ((BitVec.ofNat 1 (s.bitAt p)).setWidth 64).toNat = s.bitAt p := by
      simp; omega
    simp only [BitVec.toNat_ofNat]
    rw [toNat_shiftLeft_or _ _ _ (by rw [hx]; omega), hx, fieldNat_succ_left, Nat.add_mod, Nat.mul_mod, Nat.mod_mod,
      ← Nat.mul_mod, ← Nat.add_mod, Nat.pow_succ]
    congr 1; ring

/-- A loop of `Bits` that meets an unknown byte faults at the first one. -/
theorem bitsLoop_unwritten (n p j : Nat) (v : BitVec 64) (hj : j < n) (h : s.Written p j)
    (hu : s.known ((p + j) / 8) = false) : s.bitsLoop n p v = .error (.uninitRead ((p + j) / 8)) := by
  induction n generalizing p v j with
  | zero => omega
  | succ n ih =>
    unfold State.bitsLoop
    cases j with
    | zero =>
      rw [streamBit_unknown s p (by simpa using hu)]; rfl
    | succ j =>
      obtain ⟨h0, h1⟩ := (written_succ s p j).mp h
      rw [streamBit_known s p h0]
      change s.bitsLoop n (p + 1) _ = _
      have e : p + (j + 1) = p + 1 + j := by omega
      rw [e] at hu ⊢
      exact ih _ _ _ (by omega) h1 hu

/-- Either all of a field is known, or there is a first bit of it in an unknown byte. -/
theorem written_or_first (p n : Nat) :
    s.Written p n ∨ ∃ j, j < n ∧ s.Written p j ∧ s.known ((p + j) / 8) = false := by
  induction n with
  | zero => left; intro k hk; omega
  | succ n ih =>
    rcases ih with h | ⟨j, hj, h⟩
    · cases hk : s.known ((p + n) / 8) with
      | false => exact .inr ⟨n, by omega, h, hk⟩
      | true =>
        left; intro k hlt
        by_cases e : k = n
        · subst e; exact hk
        · exact h k (by omega)
    · exact .inr ⟨j, by omega, h⟩

/-! ### `Bits` -/

theorem bits_readable (p n : Nat) (h : s.Readable p n) :
    s.bits p n = .ok (BitVec.ofNat 64 (s.fieldNat p n), p + n) := by
  unfold State.bits
  rw [if_neg (by have := h.1; omega), bitsLoop_written s n p 0 h.2]
  simp [bind, Except.bind, pure, Except.pure]

theorem bits_short (p n : Nat) (h : 8 * s.len < p + n) : s.bits p n = .error (.error .outOfBits) := by
  unfold State.bits
  rw [if_pos h]

theorem bits_unwritten (p n j : Nat) (h : p + n ≤ 8 * s.len) (hj : j < n) (hw : s.Written p j)
    (hu : s.known ((p + j) / 8) = false) : s.bits p n = .error (.uninitRead ((p + j) / 8)) := by
  unfold State.bits
  rw [if_neg (by omega), bitsLoop_unwritten s n p j 0 hj hw hu]; rfl

theorem bits_firstUnwritten (p n j : Nat) (h : s.FirstUnwritten p n j) :
    s.bits p n = .error (.uninitRead ((p + j) / 8)) := bits_unwritten s p n j h.1 h.2.1 h.2.2.1 h.2.2.2

/-- Everything `Bits` can answer. -/
theorem bits_cases (p n : Nat) :
    (s.Readable p n ∧ s.bits p n = .ok (BitVec.ofNat 64 (s.fieldNat p n), p + n)) ∨
    (8 * s.len < p + n ∧ s.bits p n = .error (.error .outOfBits)) ∨
    (p + n ≤ 8 * s.len ∧ ∃ j, j < n ∧ s.Written p j ∧ s.known ((p + j) / 8) = false ∧
      s.bits p n = .error (.uninitRead ((p + j) / 8))) := by
  by_cases h : 8 * s.len < p + n
  · exact .inr (.inl ⟨h, bits_short s p n h⟩)
  · rcases written_or_first s p n with hw | ⟨j, hj, hw, hu⟩
    · exact .inl ⟨⟨by omega, hw⟩, bits_readable s p n ⟨by omega, hw⟩⟩
    · exact .inr (.inr ⟨by omega, j, hj, hw, hu, bits_unwritten s p n j (by omega) hj hw hu⟩)

/-- What a `Bits` that returned says of the stream. -/
theorem bits_ok_inv {p n q : Nat} {v : BitVec 64} (h : s.bits p n = .ok (v, q)) :
    s.Readable p n ∧ v = BitVec.ofNat 64 (s.fieldNat p n) ∧ q = p + n := by
  rcases bits_cases s p n with ⟨hr, e⟩ | ⟨_, e⟩ | ⟨_, j, _, _, _, e⟩ <;> rw [e] at h
  · injection h with h; injection h with h1 h2; exact ⟨hr, h1.symm, h2.symm⟩
  · cases h
  · cases h

/-- `Bits` raises nothing but OUT_OF_BITS, and only past the end. -/
theorem bits_error_inv {p n : Nat} {e : ErrCode} (h : s.bits p n = .error (.error e)) :
    e = .outOfBits ∧ 8 * s.len < p + n := by
  rcases bits_cases s p n with ⟨_, e'⟩ | ⟨hl, e'⟩ | ⟨_, j, _, _, _, e'⟩ <;> rw [e'] at h <;> cases h
  exact ⟨rfl, hl⟩

/-- `Bits` faults only at an unknown byte below LEN. -/
theorem bits_uninit_inv {p n a : Nat} (h : s.bits p n = .error (.uninitRead a)) : a < s.len ∧ s.known a = false := by
  rcases bits_cases s p n with ⟨_, e'⟩ | ⟨_, e'⟩ | ⟨hl, j, hj, _, hu, e'⟩ <;> rw [e'] at h <;> cases h
  exact ⟨by omega, hu⟩

end Sys2Proof.Machine
end

