-- ==== Sys2Proof/Laws/Literal.lean ====
section
/-! SUPPORT. What `LitLoop` returns, against the true value of a literal; and that it ends by itself. -/

namespace Sys2Proof.Machine

variable (s : State)

/-- The first group of a literal is its most significant. -/
theorem literalNat_succ_left (p g : Nat) :
    s.literalNat p (g + 1) = s.fieldNat (p + 1) 4 * 16 ^ g + s.literalNat (p + 5) g := by
  induction g with
  | zero => simp [State.literalNat]
  | succ g ih =>
    have e : p + 5 + 5 * g + 1 = p + 5 * (g + 1) + 1 := by omega
    rw [State.literalNat, ih, State.literalNat, e, Nat.pow_succ]
    ring

theorem literalNat_lt (p g : Nat) : s.literalNat p g < 16 ^ g := by
  induction g with
  | zero => simp [State.literalNat]
  | succ g ih =>
    have := fieldNat_lt s (p + 5 * g + 1) 4
    simp only [State.literalNat, Nat.pow_succ]; omega

/-- The top bit of a group is its continuation flag. -/
theorem group_flag (p : Nat) : (BitVec.ofNat 64 (s.fieldNat p 5)).getLsbD 4 = decide (s.bitAt p = 1) := by
  have hb := bitAt_lt s p
  have hf := fieldNat_lt s (p + 1) 4
  have hs : s.fieldNat p 5 = s.bitAt p * 2 ^ 4 + s.fieldNat (p + 1) 4 := fieldNat_succ_left s p 4
  have ht : s.fieldNat p 5 / 2 ^ 4 = s.bitAt p := by omega
  simp only [BitVec.getLsbD_ofNat, Nat.testBit_eq_decide_div_mod_eq, ht]
  simp [Nat.mod_eq_of_lt hb]

/-- The low four bits of a group are its nibble. -/
theorem group_nibble (p : Nat) :
    ((BitVec.ofNat 64 (s.fieldNat p 5)).extractLsb' 0 4).setWidth 64 = BitVec.ofNat 64 (s.fieldNat (p + 1) 4) := by
  have hf := fieldNat_lt s (p + 1) 4
  have hs : s.fieldNat p 5 = s.bitAt p * 2 ^ 4 + s.fieldNat (p + 1) 4 := fieldNat_succ_left s p 4
  apply BitVec.eq_of_toNat_eq
  simp; omega

/-- The bits about to be shifted out of the accumulator tell whether the true value reaches 2^64. -/
theorem overflow_tracks (v x : Nat) (hx : x < 16) :
    (decide (2 ^ 64 ≤ v) || ((BitVec.ofNat 64 v).extractLsb' 60 4 != 0)) = decide (2 ^ 64 ≤ 16 * v + x) := by
  by_cases h : 2 ^ 64 ≤ v
  · have : 2 ^ 64 ≤ 16 * v + x := by omega
    simp only [h, this, decide_true, Bool.true_or]
  · have e : ((BitVec.ofNat 64 v).extractLsb' 60 4 != 0) = decide (2 ^ 60 ≤ v) := by
      rw [Bool.eq_iff_iff]
      simp only [bne_iff_ne, ne_eq, decide_eq_true_eq]
      rw [← BitVec.toNat_inj]
      simp [Nat.shiftRight_eq_div_pow]
      omega
    rw [e]; simp only [h, decide_false, Bool.false_or, decide_eq_decide]; omega

/-- One turn of `LitLoop` over a readable group, where the accumulator and the flag stand for the true value `v`. -/
theorem litTurns_turn (fuel v g p : Nat) (h : s.Readable p 5) :
    s.litTurns (fuel + 1) (BitVec.ofNat 64 v) g (decide (2 ^ 64 ≤ v)) p =
      if s.bitAt p = 1 then
        s.litTurns fuel (BitVec.ofNat 64 (16 * v + s.fieldNat (p + 1) 4)) (g + 1)
          (decide (2 ^ 64 ≤ 16 * v + s.fieldNat (p + 1) 4)) (p + 5)
      else .ok { acc := BitVec.ofNat 64 (16 * v + s.fieldNat (p + 1) 4), groups := g + 1,
                 ovf := decide (2 ^ 64 ≤ 16 * v + s.fieldNat (p + 1) 4), pos := p + 5 } := by
  have hn := fieldNat_lt s (p + 1) 4
  have hacc : (BitVec.ofNat 64 v <<< 4) ||| BitVec.ofNat 64 (s.fieldNat (p + 1) 4)
      = BitVec.ofNat 64 (16 * v + s.fieldNat (p + 1) 4) := by
    apply BitVec.eq_of_toNat_eq
    rw [toNat_shiftLeft_or _ _ _ (by simp; omega)]
    simp only [BitVec.toNat_ofNat]
    omega
  rw [State.litTurns, bits_readable s p 5 h]
  simp only [bind, Except.bind, pure, Except.pure, group_flag, group_nibble, hacc, overflow_tracks v _ hn,
    decide_eq_true_eq]

/-- A turn that does not read a whole group ends `LitLoop` with what `Bits` answers. -/
theorem litTurns_stop (fuel g p : Nat) (acc : BitVec 64) (ovf : Bool) (e : Stop) (h : s.bits p 5 = .error e) :
    s.litTurns (fuel + 1) acc g ovf p = .error e := by
  rw [State.litTurns, h]; rfl

/-- `LitLoop` over `g` groups that all carry on. -/
theorem litTurns_groups (fuel v g0 p g : Nat) (h : s.Readable p (5 * g)) (hc : ∀ j, j < g → s.bitAt (p + 5 * j) = 1) :
    s.litTurns (g + fuel) (BitVec.ofNat 64 v) g0 (decide (2 ^ 64 ≤ v)) p =
      s.litTurns fuel (BitVec.ofNat 64 (v * 16 ^ g + s.literalNat p g)) (g0 + g)
        (decide (2 ^ 64 ≤ v * 16 ^ g + s.literalNat p g)) (p + 5 * g) := by
  induction g generalizing v g0 p with
  | zero => simp [State.literalNat]
  | succ g ih =>
    have h' : s.Readable p (5 + 5 * g) := by rwa [show 5 + 5 * g = 5 * (g + 1) by omega]
    obtain ⟨h5, hr⟩ := (readable_add s p 5 (5 * g)).mp h'
    have e : (16 * v + s.fieldNat (p + 1) 4) * 16 ^ g + s.literalNat (p + 5) g
        = v * 16 ^ (g + 1) + s.literalNat p (g + 1) := by rw [literalNat_succ_left, Nat.pow_succ]; ring
    rw [show g + 1 + fuel = g + fuel + 1 by omega, litTurns_turn s _ _ _ _ h5, if_pos (by simpa using hc 0 (by omega)),
      ih _ _ _ hr (fun j hj => by
        have := hc (j + 1) (by omega)
        rwa [show p + 5 * (j + 1) = p + 5 + 5 * j by omega] at this), e]
    rw [show g0 + 1 + g = g0 + (g + 1) by omega, show p + 5 + 5 * g = p + 5 * (g + 1) by omega]

/-- More turns than groups fit the stream never matter. -/
theorem litTurns_more (fuel k g p : Nat) (acc : BitVec 64) (ovf : Bool) (h : 8 * s.len < p + 5 * fuel) :
    s.litTurns (fuel + k) acc g ovf p = s.litTurns fuel acc g ovf p := by
  induction fuel generalizing acc g ovf p with
  | zero =>
    cases k with
    | zero => rfl
    | succ k => rw [Nat.zero_add, litTurns_stop s k g p acc ovf _ (bits_short s p 5 (by omega))]; rfl
  | succ fuel ih =>
    rw [show fuel + 1 + k = fuel + k + 1 by omega, State.litTurns, State.litTurns]
    cases hb : s.bits p 5 with
    | error e => rfl
    | ok r =>
      obtain ⟨x, q⟩ := r
      obtain ⟨_, _, rfl⟩ := bits_ok_inv s hb
      simp only [bind, Except.bind]
      rw [ih _ _ _ _ (by omega)]

theorem litFuel_enough (p : Nat) : 8 * s.len < p + 5 * s.litFuel := by unfold State.litFuel; omega

/-- `LitLoop` of a complete literal. -/
theorem litLoop_literalAt (p g : Nat) (h : s.LiteralAt p g) :
    s.litLoop p = .ok { acc := BitVec.ofNat 64 (s.literalNat p g), groups := g,
                        ovf := decide (2 ^ 64 ≤ s.literalNat p g), pos := p + 5 * g } := by
  obtain ⟨hg, hr, hc⟩ := h
  obtain ⟨g, rfl⟩ : ∃ k, g = k + 1 := ⟨g - 1, by omega⟩
  have hr' : s.Readable p (5 * g + 5) := by rwa [show 5 * g + 5 = 5 * (g + 1) by omega]
  obtain ⟨hr1, hr2⟩ := (readable_add s p (5 * g) 5).mp hr'
  have hlen := hr.1
  obtain ⟨k, hk⟩ : ∃ k, s.litFuel = g + (k + 1) := ⟨s.litFuel - g - 1, by unfold State.litFuel; omega⟩
  unfold State.litLoop
  rw [hk]
  have h0 := litTurns_groups s (k + 1) 0 0 p g hr1 (fun j hj => by simpa [hj] using hc j (by omega))
  rw [show (decide (2 ^ 64 ≤ 0)) = false from rfl] at h0
  rw [show (0 : BitVec 64) = BitVec.ofNat 64 0 from rfl, h0, litTurns_turn s _ _ _ _ hr2,
    if_neg (by have := hc g (by omega); simp at this; simp [this])]
  simp [State.literalNat, Nat.mul_add, Nat.add_assoc]

/-- `LitLoop` of a literal that the stream's end cuts off. -/
theorem litLoop_literalCut (p g : Nat) (h : s.LiteralCut p g) : s.litLoop p = .error (.error .outOfBits) := by
  obtain ⟨hw, hl, hs, hc⟩ := h
  obtain ⟨k, hk⟩ : ∃ k, s.litFuel = g + (k + 1) := ⟨s.litFuel - g - 1, by unfold State.litFuel; omega⟩
  have h0 := litTurns_groups s (k + 1) 0 0 p g ⟨hl, hw⟩ hc
  rw [show (decide (2 ^ 64 ≤ 0)) = false from rfl] at h0
  unfold State.litLoop
  rw [hk, show (0 : BitVec 64) = BitVec.ofNat 64 0 from rfl, h0]
  exact litTurns_stop s _ _ _ _ _ _ (bits_short s _ _ (by omega))

/-- `LitLoop` of a literal with an unknown byte in group `g`. -/
theorem litLoop_literalUnwritten (p g j : Nat) (h : s.LiteralUnwritten p g j) :
    s.litLoop p = .error (.uninitRead ((p + 5 * g + j) / 8)) := by
  obtain ⟨hw, hc, hu⟩ := h
  have hl := hu.1
  obtain ⟨k, hk⟩ : ∃ k, s.litFuel = g + (k + 1) := ⟨s.litFuel - g - 1, by unfold State.litFuel; omega⟩
  have h0 := litTurns_groups s (k + 1) 0 0 p g ⟨by omega, hw⟩ hc
  rw [show (decide (2 ^ 64 ≤ 0)) = false from rfl] at h0
  unfold State.litLoop
  rw [hk, show (0 : BitVec 64) = BitVec.ofNat 64 0 from rfl, h0]
  exact litTurns_stop s _ _ _ _ _ _ (bits_firstUnwritten s _ _ _ hu)

/-- At any position there is a complete literal, a literal cut off, or a first group in which a byte is unknown. -/
theorem literal_cases (p : Nat) :
    (∃ g, s.LiteralAt p g) ∨ (∃ g, s.LiteralCut p g) ∨ 8 * s.len < p ∨
    ∃ g j, s.Readable p (5 * g) ∧ (∀ i, i < g → s.bitAt (p + 5 * i) = 1) ∧ p + 5 * g + 5 ≤ 8 * s.len ∧ j < 5 ∧
      s.Written (p + 5 * g) j ∧ s.known ((p + 5 * g + j) / 8) = false := by
  by_cases hp : 8 * s.len < p
  · exact .inr (.inr (.inl hp))
  have key : ∀ n g, n = 8 * s.len - (p + 5 * g) → s.Readable p (5 * g) → (∀ i, i < g → s.bitAt (p + 5 * i) = 1) →
      (∃ g, s.LiteralAt p g) ∨ (∃ g, s.LiteralCut p g) ∨
      ∃ g j, s.Readable p (5 * g) ∧ (∀ i, i < g → s.bitAt (p + 5 * i) = 1) ∧ p + 5 * g + 5 ≤ 8 * s.len ∧ j < 5 ∧
        s.Written (p + 5 * g) j ∧ s.known ((p + 5 * g + j) / 8) = false := by
    intro n
    induction n using Nat.strongRecOn with
    | _ n ih =>
      intro g hn hr hc
      by_cases hs : 8 * s.len < p + 5 * (g + 1)
      · exact .inr (.inl ⟨g, hr.2, hr.1, hs, hc⟩)
      rcases written_or_first s (p + 5 * g) 5 with hw | ⟨j, hj, hw, hu⟩
      · have hr' : s.Readable p (5 * (g + 1)) := by
          rw [show 5 * (g + 1) = 5 * g + 5 by omega]
          exact (readable_add s p (5 * g) 5).mpr ⟨hr, by omega, hw⟩
        have hb := bitAt_lt s (p + 5 * g)
        by_cases h1 : s.bitAt (p + 5 * g) = 1
        · refine ih _ (by omega) (g + 1) rfl hr' fun i hi => ?_
          by_cases e : i = g
          · subst e; exact h1
          · exact hc i (by omega)
        · refine .inl ⟨g + 1, by omega, hr', fun i hi => ?_⟩
          by_cases e : i = g
          · subst e; simp; omega
          · rw [if_pos (by omega)]; exact hc i (by omega)
      · exact .inr (.inr ⟨g, j, hr, hc, by omega, hj, hw, hu⟩)
  rcases key _ 0 rfl ⟨by omega, fun k hk => by omega⟩ (fun i hi => by omega) with h | h | h
  · exact .inl h
  · exact .inr (.inl h)
  · exact .inr (.inr (.inr h))

/-- Everything `LitLoop` can answer. -/
theorem litLoop_cases (p : Nat) :
    (∃ g, s.LiteralAt p g ∧ s.litLoop p =
      .ok ⟨BitVec.ofNat 64 (s.literalNat p g), g, decide (2 ^ 64 ≤ s.literalNat p g), p + 5 * g⟩) ∨
    (s.litLoop p = .error (.error .outOfBits)) ∨
    ∃ a, a < s.len ∧ s.known a = false ∧ s.litLoop p = .error (.uninitRead a) := by
  rcases literal_cases s p with ⟨g, h⟩ | ⟨g, h⟩ | h | ⟨g, j, hr, hc, hl, hj, hw, hu⟩
  · exact .inl ⟨g, h, litLoop_literalAt s p g h⟩
  · exact .inr (.inl (litLoop_literalCut s p g h))
  · refine .inr (.inl ?_)
    unfold State.litLoop State.litFuel
    exact litTurns_stop s _ _ _ _ _ _ (bits_short s p 5 (by omega))
  · refine .inr (.inr ⟨(p + 5 * g + j) / 8, by omega, hu, ?_⟩)
    obtain ⟨k, hk⟩ : ∃ k, s.litFuel = g + (k + 1) := ⟨s.litFuel - g - 1, by unfold State.litFuel; omega⟩
    have h0 := litTurns_groups s (k + 1) 0 0 p g hr hc
    rw [show (decide (2 ^ 64 ≤ 0)) = false from rfl] at h0
    unfold State.litLoop
    rw [hk, show (0 : BitVec 64) = BitVec.ofNat 64 0 from rfl, h0]
    exact litTurns_stop s _ _ _ _ _ _ (bits_unwritten s _ 5 j (by omega) hj hw hu)

/-- What a `LitLoop` that returned says of the stream. -/
theorem litLoop_ok_inv {p : Nat} {r : LitResult} (h : s.litLoop p = .ok r) :
    s.LiteralAt p r.groups ∧ r.acc = BitVec.ofNat 64 (s.literalNat p r.groups) ∧
      r.ovf = decide (2 ^ 64 ≤ s.literalNat p r.groups) ∧ r.pos = p + 5 * r.groups := by
  rcases litLoop_cases s p with ⟨g, hl, e⟩ | e | ⟨a, _, _, e⟩ <;> rw [e] at h <;> cases h
  exact ⟨hl, rfl, rfl, rfl⟩

end Sys2Proof.Machine
end

