-- ==== Sys2Proof/Laws/Exec.lean ====
section
/-! SUPPORT. Everything a command can do, said once: the answers of the shared bodies, and one list of effects that every
next state of exec falls under. -/

namespace Sys2Proof.Machine

/-! ### The shared ends of a command -/

theorem conclude_next {s t : State} {b : Except Stop State} (h : conclude s b = .next t) :
    b = .ok t ∨ ∃ e, b = .error (.error e) ∧ t = s.raise e := by
  cases b with
  | ok u => exact .inl (by injection h with h; rw [h])
  | error e =>
    cases e with
    | error e => exact .inr ⟨e, rfl, by injection h with h; exact h.symm⟩
    | uninitRead a => cases h

theorem conclude_fault {s : State} {b : Except Stop State} {f : Fault} (h : conclude s b = .fault f) :
    ∃ a, b = .error (.uninitRead a) ∧ f = .uninitRead a := by
  cases b with
  | ok u => cases h
  | error e =>
    cases e with
    | error e => cases h
    | uninitRead a => exact ⟨a, rfl, by injection h with h; exact h.symm⟩

theorem conclude_not_refused {s : State} {b : Except Stop State} {r : Refusal} : conclude s b ≠ .refused r := by
  cases b with
  | ok u => exact fun h => nomatch h
  | error e => cases e <;> exact fun h => nomatch h

theorem gated_ready {s : State} (b : Except Stop State) (h : s.err = .none) : gated s b = conclude s b := if_pos h

theorem gated_refuses {s : State} (b : Except Stop State) (h : s.err ≠ .none) : gated s b = .next s.refuse := if_neg h

theorem gated_next {s t : State} {b : Except Stop State} (h : gated s b = .next t) :
    (s.err ≠ .none ∧ t = s.refuse) ∨ (s.err = .none ∧ (b = .ok t ∨ ∃ e, b = .error (.error e) ∧ t = s.raise e)) := by
  by_cases he : s.err = .none
  · rw [gated_ready b he] at h
    exact .inr ⟨he, conclude_next h⟩
  · rw [gated_refuses b he] at h
    exact .inl ⟨he, by injection h with h; exact h.symm⟩

theorem gated_fault {s : State} {b : Except Stop State} {f : Fault} (h : gated s b = .fault f) :
    s.err = .none ∧ ∃ a, b = .error (.uninitRead a) ∧ f = .uninitRead a := by
  by_cases he : s.err = .none
  · rw [gated_ready b he] at h
    exact ⟨he, conclude_fault h⟩
  · rw [gated_refuses b he] at h; cases h

theorem gated_not_refused {s : State} {b : Except Stop State} {r : Refusal} : gated s b ≠ .refused r := by
  by_cases he : s.err = .none
  · rw [gated_ready b he]; exact conclude_not_refused
  · rw [gated_refuses b he]; exact fun h => nomatch h

/-! ### The bodies -/

/-- What a body that reads the stream can answer: a response with POS moved by NBITS inside the stream, OUT_OF_BITS, or the
fault of an unknown byte below LEN. -/
inductive ReadAnswer (s : State) : Except Stop State → Prop
  | answered (r : Resp) (hp : s.pos + r.nbits ≤ 8 * s.len) (hs : r.status = .none) (hr : r.refused = false)
      (hg : 5 * r.groups ≤ r.nbits) (ht : r.target ≤ s.pos + r.nbits + 32767) :
      ReadAnswer s (.ok (s.answered (s.pos + r.nbits) r))
  | short : ReadAnswer s (.error (.error .outOfBits))
  | uninit (a : Nat) (ha : a < s.len) (hk : s.known a = false) : ReadAnswer s (.error (.uninitRead a))

theorem readField_readable (s : State) (n : Nat) (f : BitVec 64 → Nat → Resp) (h : s.Readable s.pos n) :
    s.readField n f =
      .ok (s.answered (s.pos + n) (f (BitVec.ofNat 64 (s.fieldNat s.pos n)) (s.pos + n))) := by
  unfold State.readField
  rw [bits_readable s _ n h]; rfl

theorem readField_short (s : State) (n : Nat) (f : BitVec 64 → Nat → Resp) (h : 8 * s.len < s.pos + n) :
    s.readField n f = .error (.error .outOfBits) := by
  unfold State.readField
  rw [bits_short s _ n h]; rfl

theorem readField_unwritten (s : State) (n j : Nat) (f : BitVec 64 → Nat → Resp) (h : s.pos + n ≤ 8 * s.len)
    (hj : j < n) (hw : s.Written s.pos j) (hu : s.known ((s.pos + j) / 8) = false) :
    s.readField n f = .error (.uninitRead ((s.pos + j) / 8)) := by
  unfold State.readField
  rw [bits_unwritten s _ n j h hj hw hu]; rfl

theorem readField_answer (s : State) (n : Nat) (f : BitVec 64 → Nat → Resp)
    (hf : ∀ v : Nat, v < 2 ^ n → (f (BitVec.ofNat 64 v) (s.pos + n)).nbits = n ∧
      (f (BitVec.ofNat 64 v) (s.pos + n)).status = .none ∧ (f (BitVec.ofNat 64 v) (s.pos + n)).refused = false ∧
      (f (BitVec.ofNat 64 v) (s.pos + n)).groups = 0 ∧
      (f (BitVec.ofNat 64 v) (s.pos + n)).target ≤ s.pos + n + 32767) :
    ReadAnswer s (s.readField n f) := by
  rcases bits_cases s s.pos n with ⟨hr, _⟩ | ⟨hs, _⟩ | ⟨hl, j, hj, hw, hu, _⟩
  · rw [readField_readable s n f hr]
    obtain ⟨h1, h2, h3, h4, h5⟩ := hf _ (fieldNat_lt s s.pos n)
    have := ReadAnswer.answered (s := s) (f (BitVec.ofNat 64 (s.fieldNat s.pos n)) (s.pos + n))
      (by rw [h1]; exact hr.1) h2 h3 (by omega) (by omega)
    rwa [h1] at this
  · rw [readField_short s n f hs]; exact .short
  · rw [readField_unwritten s n j f hl hj hw hu]; exact .uninit _ (by omega) hu

theorem execLit_body (s : State) :
    ReadAnswer s (do let l ← s.litLoop s.pos; return (s.setPos l.pos).writeResp (respLit l)) := by
  rcases litLoop_cases s s.pos with ⟨g, hl, e⟩ | e | ⟨a, ha, hk, e⟩ <;> rw [e]
  · have hlen := hl.2.1.1
    exact ReadAnswer.answered (s := s)
      (respLit ⟨BitVec.ofNat 64 (s.literalNat s.pos g), g, decide (2 ^ 64 ≤ s.literalNat s.pos g), s.pos + 5 * g⟩)
      hlen rfl rfl (Nat.le_refl _) (by simp [respLit, Resp.zero])
  · exact .short
  · exact .uninit a ha hk

/-! ### PKT -/

/-- PKT's body after the header, as the machine runs it. -/
def State.pktBody (s : State) : Except Stop State := do
  let (v, p) ← s.bits s.pos 3
  let (t, p) ← s.bits p 3
  let ver := v.extractLsb' 0 3
  let typ := t.extractLsb' 0 3
  if typ = 4 then s.pktLiteral ver typ p else s.pktOperator ver typ p

theorem execPkt_eq (s : State) : execPkt s = gated s s.pktBody := rfl

/-- The low three bits of a number. -/
theorem extract_three (v : Nat) : (BitVec.ofNat 64 v).extractLsb' 0 3 = BitVec.ofNat 3 v := by
  apply BitVec.eq_of_toNat_eq
  simp

theorem ofNat_three_eq_four (v : Nat) (h : v < 8) : BitVec.ofNat 3 v = 4 ↔ v = 4 := by
  rw [← BitVec.toNat_inj]; simp; omega

/-- PKT's body once the header is read. -/
theorem pktBody_header (s : State) (h : s.Readable s.pos 6) :
    s.pktBody = if s.fieldNat (s.pos + 3) 3 = 4
      then s.pktLiteral (BitVec.ofNat 3 (s.fieldNat s.pos 3)) (BitVec.ofNat 3 (s.fieldNat (s.pos + 3) 3)) (s.pos + 6)
      else s.pktOperator (BitVec.ofNat 3 (s.fieldNat s.pos 3)) (BitVec.ofNat 3 (s.fieldNat (s.pos + 3) 3)) (s.pos + 6) := by
  obtain ⟨h1, h2⟩ := (readable_add s s.pos 3 3).mp h
  have e1 := extract_three (s.fieldNat s.pos 3)
  have e2 := extract_three (s.fieldNat (s.pos + 3) 3)
  have e4 := ofNat_three_eq_four _ (fieldNat_lt s (s.pos + 3) 3)
  unfold State.pktBody
  rw [bits_readable s _ 3 h1]
  simp only [bind, Except.bind]
  rw [bits_readable s _ 3 h2]
  simp only [e1, e2, e4]

theorem pktLiteral_literalAt (s : State) (ver typ : BitVec 3) (p g : Nat) (h : s.LiteralAt p g) :
    s.pktLiteral ver typ p =
      .ok (s.answered (p + 5 * g) (respPktLiteral ver typ ⟨BitVec.ofNat 64 (s.literalNat p g), g,
        decide (2 ^ 64 ≤ s.literalNat p g), p + 5 * g⟩ s.pos)) := by
  unfold State.pktLiteral
  rw [litLoop_literalAt s p g h]; rfl

/-- The length-type bit of a readable position. -/
theorem ltype_flag (s : State) (p : Nat) :
    (BitVec.ofNat 64 (s.fieldNat p 1)).getLsbD 0 = decide (s.bitAt p = 1) := by
  have hb := bitAt_lt s p
  have e : s.fieldNat p 1 = s.bitAt p := by simp [State.fieldNat]
  simp only [BitVec.getLsbD_ofNat, Nat.testBit_eq_decide_div_mod_eq, e]
  simp [Nat.mod_eq_of_lt hb]

theorem pktOperator_count (s : State) (ver typ : BitVec 3) (p : Nat) (h : s.Readable p 12) (hb : s.bitAt p = 1) :
    s.pktOperator ver typ p =
      .ok (s.answered (p + 12) (respPktCount ver typ (BitVec.ofNat 64 (s.fieldNat (p + 1) 11)) (p + 12) s.pos)) := by
  obtain ⟨h1, h2⟩ := (readable_add s p 1 11).mp h
  unfold State.pktOperator
  rw [bits_readable s p 1 h1]
  simp only [bind, Except.bind, ltype_flag, hb, decide_true, if_true]
  rw [bits_readable s _ 11 h2]; rfl

theorem pktOperator_length (s : State) (ver typ : BitVec 3) (p : Nat) (h : s.Readable p 16) (hb : s.bitAt p = 0) :
    s.pktOperator ver typ p =
      .ok (s.answered (p + 16) (respPktLength ver typ (BitVec.ofNat 64 (s.fieldNat (p + 1) 15)) (p + 16) s.pos)) := by
  obtain ⟨h1, h2⟩ := (readable_add s p 1 15).mp h
  unfold State.pktOperator
  rw [bits_readable s p 1 h1]
  simp only [bind, Except.bind, ltype_flag, hb]
  rw [bits_readable s _ 15 h2]; rfl

/-- Everything PKT's operator body can answer. -/
theorem pktOperator_cases (s : State) (ver typ : BitVec 3) (p : Nat) :
    (s.Readable p 12 ∧ s.bitAt p = 1 ∧ s.pktOperator ver typ p =
      .ok (s.answered (p + 12) (respPktCount ver typ (BitVec.ofNat 64 (s.fieldNat (p + 1) 11)) (p + 12) s.pos))) ∨
    (s.Readable p 16 ∧ s.bitAt p = 0 ∧ s.pktOperator ver typ p =
      .ok (s.answered (p + 16) (respPktLength ver typ (BitVec.ofNat 64 (s.fieldNat (p + 1) 15)) (p + 16) s.pos))) ∨
    s.pktOperator ver typ p = .error (.error .outOfBits) ∨
    ∃ a, a < s.len ∧ s.known a = false ∧ s.pktOperator ver typ p = .error (.uninitRead a) := by
  have hb := bitAt_lt s p
  rcases bits_cases s p 1 with ⟨h1, e⟩ | ⟨_, e⟩ | ⟨_, j, _, _, _, e⟩
  · by_cases hlt : s.bitAt p = 1
    · rcases bits_cases s (p + 1) 11 with ⟨h2, e2⟩ | ⟨_, e2⟩ | ⟨hl, j, hj, _, hu, e2⟩
      · have h : s.Readable p 12 := (readable_add s p 1 11).mpr ⟨h1, h2⟩
        exact .inl ⟨h, hlt, pktOperator_count s ver typ p h hlt⟩
      · refine .inr (.inr (.inl ?_))
        unfold State.pktOperator
        rw [e]; simp only [bind, Except.bind, ltype_flag, hlt, decide_true, if_true]; rw [e2]
      · refine .inr (.inr (.inr ⟨(p + 1 + j) / 8, by omega, hu, ?_⟩))
        unfold State.pktOperator
        rw [e]; simp only [bind, Except.bind, ltype_flag, hlt, decide_true, if_true]; rw [e2]
    · have hlt0 : s.bitAt p = 0 := by omega
      have hd : decide (s.bitAt p = 1) = false := by simp [hlt]
      rcases bits_cases s (p + 1) 15 with ⟨h2, e2⟩ | ⟨_, e2⟩ | ⟨hl, j, hj, _, hu, e2⟩
      · have h : s.Readable p 16 := (readable_add s p 1 15).mpr ⟨h1, h2⟩
        exact .inr (.inl ⟨h, hlt0, pktOperator_length s ver typ p h hlt0⟩)
      · refine .inr (.inr (.inl ?_))
        unfold State.pktOperator
        rw [e]; simp only [bind, Except.bind, ltype_flag, hd, Bool.false_eq_true, if_false]; rw [e2]
      · refine .inr (.inr (.inr ⟨(p + 1 + j) / 8, by omega, hu, ?_⟩))
        unfold State.pktOperator
        rw [e]; simp only [bind, Except.bind, ltype_flag, hd, Bool.false_eq_true, if_false]; rw [e2]
  · refine .inr (.inr (.inl ?_))
    unfold State.pktOperator
    rw [e]; rfl
  · have := bits_uninit_inv s e
    refine .inr (.inr (.inr ⟨_, this.1, this.2, ?_⟩))
    unfold State.pktOperator
    rw [e]; rfl

/-- Where the header cannot be read, PKT ends as its reads do. -/
theorem pktBody_no_header (s : State) (h : ¬ s.Readable s.pos 6) :
    (8 * s.len < s.pos + 6 ∧ s.pktBody = .error (.error .outOfBits)) ∨
    ∃ a, a < s.len ∧ s.known a = false ∧ s.pktBody = .error (.uninitRead a) := by
  unfold State.pktBody
  rcases bits_cases s s.pos 3 with ⟨h1, e⟩ | ⟨hs, e⟩ | ⟨_, j, _, _, _, e⟩
  · rw [e]
    simp only [bind, Except.bind]
    rcases bits_cases s (s.pos + 3) 3 with ⟨h2, e2⟩ | ⟨hs, e2⟩ | ⟨hl, j, hj, _, hu, e2⟩
    · exact absurd ((readable_add s s.pos 3 3).mpr ⟨h1, h2⟩) h
    · rw [e2]; exact .inl ⟨by omega, rfl⟩
    · rw [e2]; exact .inr ⟨_, by omega, hu, rfl⟩
  · rw [e]; exact .inl ⟨by omega, rfl⟩
  · have := bits_uninit_inv s e
    rw [e]; exact .inr ⟨_, this.1, this.2, rfl⟩

/-- Everything PKT's body can answer, by what stands at POS. -/
theorem pktBody_cases (s : State) :
    (∃ g, s.Readable s.pos 6 ∧ s.fieldNat (s.pos + 3) 3 = 4 ∧ s.LiteralAt (s.pos + 6) g ∧ s.pktBody =
      .ok (s.answered (s.pos + (6 + 5 * g)) (respPktLiteral (BitVec.ofNat 3 (s.fieldNat s.pos 3)) 4
        ⟨BitVec.ofNat 64 (s.literalNat (s.pos + 6) g), g, decide (2 ^ 64 ≤ s.literalNat (s.pos + 6) g),
          s.pos + (6 + 5 * g)⟩ s.pos))) ∨
    (s.Readable s.pos 18 ∧ s.fieldNat (s.pos + 3) 3 ≠ 4 ∧ s.bitAt (s.pos + 6) = 1 ∧ s.pktBody =
      .ok (s.answered (s.pos + 18) (respPktCount (BitVec.ofNat 3 (s.fieldNat s.pos 3))
        (BitVec.ofNat 3 (s.fieldNat (s.pos + 3) 3)) (BitVec.ofNat 64 (s.fieldNat (s.pos + 7) 11)) (s.pos + 18) s.pos))) ∨
    (s.Readable s.pos 22 ∧ s.fieldNat (s.pos + 3) 3 ≠ 4 ∧ s.bitAt (s.pos + 6) = 0 ∧ s.pktBody =
      .ok (s.answered (s.pos + 22) (respPktLength (BitVec.ofNat 3 (s.fieldNat s.pos 3))
        (BitVec.ofNat 3 (s.fieldNat (s.pos + 3) 3)) (BitVec.ofNat 64 (s.fieldNat (s.pos + 7) 15)) (s.pos + 22) s.pos))) ∨
    s.pktBody = .error (.error .outOfBits) ∨
    ∃ a, a < s.len ∧ s.known a = false ∧ s.pktBody = .error (.uninitRead a) := by
  by_cases h : s.Readable s.pos 6
  · rw [pktBody_header s h]
    by_cases h4 : s.fieldNat (s.pos + 3) 3 = 4
    · rw [if_pos h4]
      rcases litLoop_cases s (s.pos + 6) with ⟨g, hl, e⟩ | e | ⟨a, ha, hk, e⟩
      · refine .inl ⟨g, h, h4, hl, ?_⟩
        rw [pktLiteral_literalAt s _ _ _ g hl, h4, Nat.add_assoc]; rfl
      · refine .inr (.inr (.inr (.inl ?_)))
        unfold State.pktLiteral; rw [e]; rfl
      · refine .inr (.inr (.inr (.inr ⟨a, ha, hk, ?_⟩)))
        unfold State.pktLiteral; rw [e]; rfl
    · rw [if_neg h4]
      rcases pktOperator_cases s (BitVec.ofNat 3 (s.fieldNat s.pos 3)) (BitVec.ofNat 3 (s.fieldNat (s.pos + 3) 3))
        (s.pos + 6) with ⟨hr, hb, e⟩ | ⟨hr, hb, e⟩ | e | ⟨a, ha, hk, e⟩
      · exact .inr (.inl ⟨(readable_add s s.pos 6 12).mpr ⟨h, hr⟩, h4, hb, e⟩)
      · exact .inr (.inr (.inl ⟨(readable_add s s.pos 6 16).mpr ⟨h, hr⟩, h4, hb, e⟩))
      · exact .inr (.inr (.inr (.inl e)))
      · exact .inr (.inr (.inr (.inr ⟨a, ha, hk, e⟩)))
  · rcases pktBody_no_header s h with ⟨_, e⟩ | ⟨a, ha, hk, e⟩
    · exact .inr (.inr (.inr (.inl e)))
    · exact .inr (.inr (.inr (.inr ⟨a, ha, hk, e⟩)))

theorem ReadAnswer.of_answered {s : State} {q : Nat} {r : Resp} (hq : q = s.pos + r.nbits) (hl : q ≤ 8 * s.len)
    (hs : r.status = .none) (hr : r.refused = false) (hg : 5 * r.groups ≤ r.nbits) (ht : r.target ≤ q + 32767) :
    ReadAnswer s (.ok (s.answered q r)) := by
  subst hq
  exact .answered r hl hs hr hg ht

theorem pktBody_answer (s : State) : ReadAnswer s s.pktBody := by
  rcases pktBody_cases s with ⟨g, _, _, hl, e⟩ | ⟨h, _, _, e⟩ | ⟨h, _, _, e⟩ | e | ⟨a, ha, hk, e⟩ <;> rw [e]
  · have hlen := hl.2.1.1
    refine .of_answered ?_ (by omega) rfl rfl ?_ (Nat.zero_le _) <;> simp only [respPktLiteral] <;> omega
  · refine .of_answered ?_ h.1 rfl rfl (Nat.zero_le _) (Nat.zero_le _)
    simp only [respPktCount]; omega
  · have hf := fieldNat_lt s (s.pos + 7) 15
    refine .of_answered ?_ h.1 rfl rfl (Nat.zero_le _) ?_ <;> simp only [respPktLength]
    · omega
    · simp only [BitVec.toNat_ofNat]; omega
  · exact .short
  · exact .uninit a ha hk

/-! ### exec -/

/-- exec of a command that reads the stream runs a body of `ReadAnswer` behind the ERR gate. -/
theorem exec_extraction (i : Instr) (s : State) (h : isExtraction i = true) :
    ∃ b, exec i s = gated s b ∧ ReadAnswer s b := by
  have hz : ∀ v n, v < 2 ^ n → n ≤ 15 → (BitVec.ofNat 64 v).toNat < 2 ^ 15 := by
    intro v n hv hn
    have : 2 ^ n ≤ 2 ^ 15 := Nat.pow_le_pow_right (by omega) hn
    simp; omega
  cases i <;> first | (cases h; done) | skip
  · exact ⟨_, rfl, readField_answer s _ _ fun v hv => ⟨rfl, rfl, rfl, rfl, Nat.zero_le _⟩⟩
  · exact ⟨_, rfl, readField_answer s _ _ fun v hv => ⟨rfl, rfl, rfl, rfl, Nat.zero_le _⟩⟩
  · exact ⟨_, rfl, execLit_body s⟩
  · exact ⟨_, rfl, readField_answer s _ _ fun v hv => ⟨rfl, rfl, rfl, rfl, Nat.zero_le _⟩⟩
  · exact ⟨_, rfl, readField_answer s _ _ fun v hv => ⟨rfl, rfl, rfl, rfl, Nat.zero_le _⟩⟩
  · refine ⟨_, rfl, readField_answer s _ _ fun v hv => ⟨rfl, rfl, rfl, rfl, ?_⟩⟩
    have := hz v 15 hv (Nat.le_refl _)
    simp only [respTlen]; omega
  · exact ⟨_, rfl, pktBody_answer s⟩

/-- The effects a command can have on the state, each with the commands that have it. -/
inductive Effect (i : Instr) (s : State) : State → Prop
  | refused (h : s.err ≠ .none) (hi : runsInError i = false) : Effect i s s.refuse
  | failed (e : ErrCode) (he : e ≠ .none) (hi : s.err = .none ∨ runsInError i = true) : Effect i s (s.raise e)
  | answered (r : Resp) (hi : isExtraction i = true) (h : s.err = .none) (hp : s.pos + r.nbits ≤ 8 * s.len)
      (hs : r.status = .none) (hr : r.refused = false) (hg : 5 * r.groups ≤ r.nbits)
      (ht : r.target ≤ s.pos + r.nbits + 32767) : Effect i s (s.answered (s.pos + r.nbits) r)
  | nop (hi : i = .nop) (h : s.err = .none) : Effect i s (s.writeResp Resp.zero)
  | chk (target : BitVec 64) (hi : i = .chk target) (h : s.err = .none) (more : Bool) :
      Effect i s (s.writeResp (respChk more))
  | start (len : BitVec 64) (hi : i = .start len) (hl : len.toNat ≤ s.params.bufBytes) :
      Effect i s ((s.beginStream len.toNat).writeResp Resp.zero)
  | wrbuf (addr : BitVec 56) (byte : BitVec 8) (hi : i = .wrbuf addr byte) (ha : wrbufAddr addr < s.params.bufBytes) :
      Effect i s ((s.writeByte (wrbufAddr addr) byte).writeResp Resp.zero)

/-- Every next state of a command is one of its effects. -/
theorem exec_effect {i : Instr} {s t : State} (h : exec i s = .next t) : Effect i s t := by
  by_cases hx : isExtraction i = true
  · obtain ⟨b, e, hb⟩ := exec_extraction i s hx
    rw [e] at h
    rcases gated_next h with ⟨he, rfl⟩ | ⟨he, rfl | ⟨c, rfl, rfl⟩⟩
    · exact .refused he (by cases i <;> first | rfl | cases hx)
    · cases hb with
      | answered r hp hs hr hg ht => exact .answered r hx he hp hs hr hg ht
    · cases hb with
      | short => exact .failed _ (by decide) (.inl he)
  · cases i <;> try exact absurd rfl hx
    case nop =>
      rcases gated_next (b := .ok (s.writeResp Resp.zero)) h with ⟨he, rfl⟩ | ⟨he, hb | ⟨c, hb, rfl⟩⟩
      · exact .refused he rfl
      · injection hb with hb; rw [← hb]; exact .nop rfl he
      · cases hb
    case chk target =>
      rcases gated_next (s := s) h with ⟨he, rfl⟩ | ⟨he, hb | ⟨c, hb, rfl⟩⟩
      · exact .refused he rfl
      · split at hb
        · cases hb
        · injection hb with hb; rw [← hb]; exact .chk target rfl he _
      · split at hb
        · injection hb with hb; injection hb with hb; rw [← hb]; exact .failed _ (by decide) (.inl he)
        · cases hb
    case start len =>
      rcases conclude_next (s := s) h with hb | ⟨c, hb, rfl⟩
      · split at hb
        · cases hb
        · injection hb with hb; rw [← hb]; exact .start len rfl (by unfold startLen at *; omega)
      · split at hb
        · injection hb with hb; injection hb with hb; rw [← hb]; exact .failed _ (by decide) (.inr rfl)
        · cases hb
    case wrbuf addr byte =>
      rcases conclude_next (s := s) h with hb | ⟨c, hb, rfl⟩
      · split at hb
        · cases hb
        · injection hb with hb; rw [← hb]; exact .wrbuf addr byte rfl (by omega)
      · split at hb
        · injection hb with hb; injection hb with hb; rw [← hb]; exact .failed _ (by decide) (.inr rfl)
        · cases hb

/-- A command that does not read the stream never stops. -/
theorem exec_other_next (i : Instr) (s : State) (h : isExtraction i = false) : ∃ t, exec i s = .next t := by
  cases i <;> first | (cases h; done) | skip
  case nop =>
    by_cases he : s.err = .none
    · exact ⟨_, gated_ready _ he⟩
    · exact ⟨_, gated_refuses _ he⟩
  case chk target =>
    by_cases he : s.err = .none
    · by_cases hp : s.pos > chkTarget target
      · exact ⟨_, (gated_ready _ he).trans (by rw [if_pos hp]; rfl)⟩
      · exact ⟨_, (gated_ready _ he).trans (by rw [if_neg hp]; rfl)⟩
    · exact ⟨_, gated_refuses _ he⟩
  case start len =>
    by_cases hl : startLen len > s.params.bufBytes
    · exact ⟨_, show conclude s _ = _ by rw [if_pos hl]; rfl⟩
    · exact ⟨_, show conclude s _ = _ by rw [if_neg hl]; rfl⟩
  case wrbuf addr byte =>
    by_cases ha : wrbufAddr addr ≥ s.params.bufBytes
    · exact ⟨_, show conclude s _ = _ by rw [if_pos ha]; rfl⟩
    · exact ⟨_, show conclude s _ = _ by rw [if_neg ha]; rfl⟩

end Sys2Proof.Machine
end

