-- ==== Sys2Proof/Laws/Answer.lean ====
section
/-! SUPPORT. The state `answered`, field by field and as a stream, and what a read or a PKT that succeeded says. -/

namespace Sys2Proof.Machine

section
variable (s : State) (q : Nat) (r : Resp)

@[simp] theorem State.answered_params : (s.answered q r).params = s.params := rfl
@[simp] theorem State.answered_buf : (s.answered q r).buf = s.buf := rfl
@[simp] theorem State.answered_written : (s.answered q r).written = s.written := rfl
@[simp] theorem State.answered_len : (s.answered q r).len = s.len := rfl
@[simp] theorem State.answered_pos : (s.answered q r).pos = q := rfl
@[simp] theorem State.answered_err : (s.answered q r).err = s.err := rfl
@[simp] theorem State.answered_resp : (s.answered q r).resp = r := rfl
@[simp] theorem State.answered_rspValid : (s.answered q r).rspValid = true := rfl
@[simp] theorem State.answered_draws : (s.answered q r).draws = s.draws := rfl
@[simp] theorem State.answered_host : (s.answered q r).host = s.host := rfl

theorem fieldNat_answered (p n : Nat) : (s.answered q r).fieldNat p n = s.fieldNat p n := by
  induction n with
  | zero => rfl
  | succ n ih => simp only [State.fieldNat, ih]; rfl

theorem literalNat_answered (p g : Nat) : (s.answered q r).literalNat p g = s.literalNat p g := by
  induction g with
  | zero => rfl
  | succ g ih => simp only [State.literalNat, ih, fieldNat_answered]

theorem readable_answered (p n : Nat) : (s.answered q r).Readable p n ↔ s.Readable p n := Iff.rfl

end

/-- Bit `i` of a field, from its most significant end. -/
theorem fieldNat_testBit (s : State) (p n i : Nat) (hi : i < n) :
    (s.fieldNat p n).testBit (n - 1 - i) = decide (s.bitAt (p + i) = 1) := by
  have h1 := fieldNat_add s p i (n - i)
  have h2 : s.fieldNat (p + i) (n - i) =
      s.bitAt (p + i) * 2 ^ (n - i - 1) + s.fieldNat (p + i + 1) (n - i - 1) := by
    rw [← fieldNat_succ_left]; congr 1; omega
  have h3 := fieldNat_lt s (p + i + 1) (n - i - 1)
  have hb := bitAt_lt s (p + i)
  have hp : 0 < 2 ^ (n - i - 1) := Nat.two_pow_pos _
  rw [show i + (n - i) = n by omega] at h1
  rw [Nat.testBit_eq_decide_div_mod_eq, show n - 1 - i = n - i - 1 by omega]
  have he : s.fieldNat p n / 2 ^ (n - i - 1) = s.fieldNat p i * 2 + s.bitAt (p + i) := by
    rw [h1, h2, show 2 ^ (n - i) = 2 ^ (n - i - 1) * 2 by rw [← Nat.pow_succ]; congr 1; omega]
    rw [show s.fieldNat p i * (2 ^ (n - i - 1) * 2) + (s.bitAt (p + i) * 2 ^ (n - i - 1)
        + s.fieldNat (p + i + 1) (n - i - 1)) = s.fieldNat (p + i + 1) (n - i - 1)
        + 2 ^ (n - i - 1) * (s.fieldNat p i * 2 + s.bitAt (p + i)) by ring,
      Nat.add_mul_div_left _ _ hp, Nat.div_eq_of_lt h3]
    omega
  rw [he]
  simp only [decide_eq_decide]
  omega

/-- The loop of `Bits` in two parts. -/
theorem bitsLoop_add (s : State) (m n p : Nat) (v : BitVec 64) :
    s.bitsLoop (m + n) p v = (s.bitsLoop m p v).bind fun w => s.bitsLoop n (p + m) w := by
  induction m generalizing p v with
  | zero => simp [State.bitsLoop, Except.bind]
  | succ m ih =>
    rw [show m + 1 + n = m + n + 1 by omega]
    simp only [State.bitsLoop, bind]
    cases hb : s.streamBit p with
    | error e => rfl
    | ok b =>
      simp only [Except.bind]
      rw [ih, show p + 1 + m = p + (m + 1) by omega]; rfl

/-- A command of one read on a readable field. -/
theorem gated_readField (s : State) (n : Nat) (f : BitVec 64 → Nat → Resp) (h : s.err = .none) (hr : s.Readable s.pos n) :
    gated s (s.readField n f) =
      .next (s.answered (s.pos + n) (f (BitVec.ofNat 64 (s.fieldNat s.pos n)) (s.pos + n))) := by
  rw [gated_ready _ h, readField_readable s n f hr]; rfl

/-- What a command of one read that succeeded says of the stream. -/
theorem gated_readField_inv {s t : State} {n : Nat} {f : BitVec 64 → Nat → Resp}
    (h : gated s (s.readField n f) = .next t) (hs : t.resp.status = .none) :
    s.err = .none ∧ s.Readable s.pos n ∧
      t = s.answered (s.pos + n) (f (BitVec.ofNat 64 (s.fieldNat s.pos n)) (s.pos + n)) := by
  have hg := gated_next h
  clear h
  rcases hg with ⟨he, rfl⟩ | ⟨he, hb⟩
  · exact absurd hs he
  · refine ⟨he, ?_⟩
    rcases bits_cases s s.pos n with ⟨hr, _⟩ | ⟨hl, _⟩ | ⟨hl, j, hj, hw, hu, _⟩
    · rw [readField_readable s n f hr] at hb
      rcases hb with hb | ⟨e, hb, _⟩ <;> cases hb
      exact ⟨hr, rfl⟩
    · rw [readField_short s n f hl] at hb
      rcases hb with hb | ⟨e, hb, rfl⟩ <;> cases hb
      cases hs
    · rw [readField_unwritten s n j f hl hj hw hu] at hb
      rcases hb with hb | ⟨e, hb, _⟩ <;> cases hb

/-- A PKT that succeeded ran its body. -/
theorem execPkt_inv {s t : State} (h : execPkt s = .next t) (hs : t.resp.status = .none) :
    s.err = .none ∧ s.pktBody = .ok t := by
  have hg := gated_next (b := s.pktBody) h
  clear h
  rcases hg with ⟨he, rfl⟩ | ⟨he, h | ⟨e, h, rfl⟩⟩
  · exact absurd hs he
  · exact ⟨he, h⟩
  · have := pktBody_answer s
    rw [h] at this
    cases this
    cases hs

end Sys2Proof.Machine
end

