-- ==== Sys2Proof/Laws/Driver.lean ====
section
/-! SUPPORT. The parts of a whole decode: what follows a part that returned, and what one issued command did. -/

namespace Sys2Proof.Machine

theorem andThen_done {α β : Type} {d : Decoded α} {k : α → State → Decoded β} {b : β} {t : State}
    (h : d.andThen k = .done b t) : ∃ a s, d = .done a s ∧ k a s = .done b t := by
  cases d <;> first | exact ⟨_, _, rfl, h⟩ | cases h

/-- An issued command that returned was accepted and answered with STATUS 0. -/
theorem issue_inv {i : Instr} {s t : State} {r : Resp} (h : issue i s = .done r t) :
    accept (encodeCmd i) (encodeData i) s = .next t ∧ r = t.resp ∧ t.resp.status = .none := by
  unfold issue at h
  split at h
  · split at h
    · cases h; exact ⟨‹_›, rfl, ‹_›⟩
    · cases h
  · cases h
  · cases h

end Sys2Proof.Machine
end

