-- ==== Sys2Proof/Laws/Encoding.lean ====
section
/-! SUPPORT. The fields of the command word and of WRBUF's data operand, and `wellFormed` by those fields. -/

namespace Sys2Proof

/-- A command word by its three fields (spec/30_encoding.md R71). -/
theorem toNat_cmd (cmd : CmdWord) :
    cmd.toNat = (opField cmd).toNat * 4096 + (rsvField cmd).toNat * 64 + (wField cmd).toNat := by
  unfold opField rsvField wField
  have := cmd.isLt
  simp [Nat.shiftRight_eq_div_pow]
  omega

/-- RSV and W are the low twelve bits. -/
theorem low_fields (cmd : CmdWord) : cmd.extractLsb' 0 12 = 0#12 ↔ rsvField cmd = 0 ∧ wField cmd = 0 := by
  simp only [← BitVec.toNat_inj, rsvField, wField]
  simp [Nat.shiftRight_eq_div_pow]
  omega

/-- `WellFormed(CMD)` by the fields. -/
theorem wellFormed_iff (cmd : CmdWord) :
    wellFormed cmd = true ↔ (opField cmd = 1#4 ∧ rsvField cmd = 0) ∨
      (opField cmd ≠ 1#4 ∧ (opField cmd).toNat ≤ 10 ∧ rsvField cmd = 0 ∧ wField cmd = 0) := by
  have hop : ∀ op : BitVec 4, plainOpcodes.contains op = true ↔ op ≠ 1#4 ∧ op.toNat ≤ 10 := by decide
  have h1 := low_fields cmd
  have h2 := hop (opField cmd)
  unfold wellFormed
  unfold opField rsvField wField at *
  simp only [Bool.or_eq_true, Bool.and_eq_true, beq_iff_eq, h1, h2]
  tauto

/-- The fields of an encoded READ. -/
theorem encodeCmd_read_fields : ∀ w : BitVec 6, opField (encodeCmd (.read w)) = 1#4 ∧
    rsvField (encodeCmd (.read w)) = 0 ∧ wField (encodeCmd (.read w)) = w := by decide

/-- WRBUF's data operand as a number (spec/30_encoding.md R77). -/
theorem toNat_wrbufData (a : BitVec 56) (b : BitVec 8) :
    ((a.setWidth 64 <<< 8) ||| b.setWidth 64 : BitVec 64).toNat = a.toNat * 256 + b.toNat := by
  have := a.isLt
  have := b.isLt
  rw [Machine.toNat_shiftLeft_or _ _ _ (by simp; omega)]
  simp; omega

theorem dataAddr_wrbufData (a : BitVec 56) (b : BitVec 8) :
    dataAddr ((a.setWidth 64 <<< 8) ||| b.setWidth 64) = a := by
  have := a.isLt
  have := b.isLt
  unfold dataAddr
  apply BitVec.eq_of_toNat_eq
  rw [BitVec.extractLsb'_toNat, toNat_wrbufData, Nat.shiftRight_eq_div_pow]; omega

theorem dataByte_wrbufData (a : BitVec 56) (b : BitVec 8) :
    dataByte ((a.setWidth 64 <<< 8) ||| b.setWidth 64) = b := by
  have := a.isLt
  have := b.isLt
  unfold dataByte
  apply BitVec.eq_of_toNat_eq
  rw [BitVec.extractLsb'_toNat, toNat_wrbufData, Nat.shiftRight_eq_div_pow]; omega

/-- DATA is its address and its byte. -/
theorem wrbufData_of_data (d : BitVec 64) : ((dataAddr d).setWidth 64 <<< 8) ||| (dataByte d).setWidth 64 = d := by
  apply BitVec.eq_of_toNat_eq
  rw [toNat_wrbufData]
  unfold dataAddr dataByte
  have := d.isLt
  simp [Nat.shiftRight_eq_div_pow]; omega

/-- A number below `n` fits `ceil(log2 n)` bits (the port widths of spec/10_state.md R38). -/
theorem lt_two_pow_ceilLog2 (n x : Nat) (h : x < n) : x < 2 ^ ceilLog2 n := by
  unfold ceilLog2
  split
  · have : x = 0 := by omega
    subst this; simp
  · have : n - 1 < 2 ^ (Nat.log2 (n - 1) + 1) := Nat.lt_log2_self
    omega

end Sys2Proof
end

