-- ==== Sys2Proof/Laws/PerInstr.lean ====
section
/-! SUPPORT. The statement made of every command: its encoding is a well-formed word with its own opcode. -/

namespace Sys2Proof.Laws.EncodedWordIsWellFormed

/-- The opcode that spec/30_encoding.md R72 gives the command. -/
def opcodeOf : Instr → BitVec 4
  | .nop => 0x0
  | .read _ => 0x1
  | .hdr => 0x2
  | .lit => 0x3
  | .ltype => 0x4
  | .count => 0x5
  | .tlen => 0x6
  | .pkt => 0x7
  | .chk _ => 0x8
  | .start _ => 0x9
  | .wrbuf _ _ => 0xA

/-- The command's word is well-formed (R74) and carries its opcode (R72). -/
def Statement (i : Instr) : Prop := wellFormed (encodeCmd i) = true ∧ opField (encodeCmd i) = opcodeOf i

theorem nop : Statement .nop := by unfold Statement; decide

theorem read (w : BitVec 6) : Statement (.read w) := by
  obtain ⟨h1, h2, _⟩ := encodeCmd_read_fields w
  exact ⟨(wellFormed_iff _).mpr (.inl ⟨h1, h2⟩), h1⟩

theorem hdr : Statement .hdr := by unfold Statement; decide

theorem lit : Statement .lit := by unfold Statement; decide

theorem ltype : Statement .ltype := by unfold Statement; decide

theorem count : Statement .count := by unfold Statement; decide

theorem tlen : Statement .tlen := by unfold Statement; decide

theorem pkt : Statement .pkt := by unfold Statement; decide

theorem chk (target : BitVec 64) : Statement (.chk target) := by
  change wellFormed 0x8000#16 = true ∧ opField 0x8000#16 = 0x8#4
  decide

theorem start (len : BitVec 64) : Statement (.start len) := by
  change wellFormed 0x9000#16 = true ∧ opField 0x9000#16 = 0x9#4
  decide

theorem wrbuf (addr : BitVec 56) (byte : BitVec 8) : Statement (.wrbuf addr byte) := by
  change wellFormed 0xA000#16 = true ∧ opField 0xA000#16 = 0xA#4
  decide

end Sys2Proof.Laws.EncodedWordIsWellFormed
end

