-- ==== Sys2Proof/Laws/Reset.lean ====
section
/-! SUPPORT. BUF's canonical form under every operation that writes BUF, and everything an abandoned WRBUF can do. -/

namespace Sys2Proof.Machine

theorem reset_memory_wf : Memory.wf State.reset.buf = true := rfl

theorem writeByte_memory_wf (s : State) (a : Nat) (b : BitVec 8) (h : Memory.wf s.buf = true) :
    Memory.wf (s.writeByte a b).buf = true := setCell_wf _ _ _ h

/-- What a WRBUF abandoned by reset leaves: BUF as it was, or with the new byte at a listed address below BUF_BYTES
(spec/70_reset_and_hazards.md R231). -/
theorem abandonWrite_cases (s : State) (a : Nat) (b : BitVec 8) :
    s.abandonWrite a b = { s with buf := (s.abandonWrite a b).buf, draws := (s.abandonWrite a b).draws } ∧
    ((s.abandonWrite a b).buf = s.buf ∨
      ((∃ old, cellAt s.buf a = some old) ∧ a < s.params.bufBytes ∧ (s.abandonWrite a b).buf = setCell s.buf a b)) := by
  unfold State.abandonWrite
  split
  · split
    · rename_i hlt _ o ho
      refine ⟨rfl, ?_⟩
      by_cases hd : Config.inFlightDraw s.draws = true <;> simp [hd, ho, hlt]
    · simp
  · simp

theorem abandonWrite_memory_wf (s : State) (a : Nat) (b : BitVec 8) (h : Memory.wf s.buf = true) :
    Memory.wf (s.abandonWrite a b).buf = true := by
  rcases (abandonWrite_cases s a b).2 with e | ⟨_, _, e⟩ <;> rw [e]
  · exact h
  · exact setCell_wf _ _ _ h

theorem abandon_memory_wf (s : State) (cmd : BitVec 16) (data : BitVec 64) (h : Memory.wf s.buf = true) :
    Memory.wf (s.abandon cmd data).buf = true := by
  unfold State.abandon
  split
  · exact abandonWrite_memory_wf s _ _ h
  · exact h

end Sys2Proof.Machine
end

