-- ==== Sys2Proof/Laws/View.lean ====
section
/-! SUPPORT. The stream reads see nothing of a state but LEN and the bytes below it. -/

namespace Sys2Proof.Machine

section
variable {s t : State} (hl : t.len = s.len) (hb : ∀ i, i < s.len → s.readByte i = t.readByte i)
include hb

theorem bitsLoop_congr (n p : Nat) (v : BitVec 64) (h : p + n ≤ 8 * s.len) : t.bitsLoop n p v = s.bitsLoop n p v := by
  induction n generalizing p v with
  | zero => rfl
  | succ n ih =>
    unfold State.bitsLoop State.streamBit
    rw [hb (p / 8) (by omega)]
    congr 1; funext b; exact ih _ _ (by omega)

include hl

theorem bits_congr (p n : Nat) : t.bits p n = s.bits p n := by
  unfold State.bits
  rw [hl]
  split
  · rfl
  · rw [bitsLoop_congr hb _ _ _ (by omega)]

theorem litTurns_congr (fuel g p : Nat) (acc : BitVec 64) (ovf : Bool) :
    t.litTurns fuel acc g ovf p = s.litTurns fuel acc g ovf p := by
  induction fuel generalizing acc g ovf p with
  | zero => rfl
  | succ fuel ih => simp only [State.litTurns, bits_congr hl hb, ih]

theorem litLoop_congr (p : Nat) : t.litLoop p = s.litLoop p := by
  unfold State.litLoop State.litFuel
  rw [hl, litTurns_congr hl hb]

end

theorem State.SameView.refl (s : State) : s.SameView s := ⟨fun _ _ => rfl, rfl, rfl, rfl, rfl⟩

theorem State.SameView.bits {s t : State} (h : s.SameView t) (p n : Nat) : t.bits p n = s.bits p n :=
  bits_congr h.2.1 h.1 p n

theorem State.SameView.litLoop {s t : State} (h : s.SameView t) (p : Nat) : t.litLoop p = s.litLoop p :=
  litLoop_congr h.2.1 h.1 p

/-- RESP, POS and ERR written alike in two states of one view leave them of one view. -/
theorem State.SameView.update {s t : State} (h : s.SameView t) (q : Nat) (c : ErrCode) (r : Resp) :
    ({ s with pos := q, err := c, resp := r, rspValid := true } : State).SameView
      { t with pos := q, err := c, resp := r, rspValid := true } := ⟨h.1, h.2.1, rfl, rfl, rfl⟩

/-- Two parts of a decode that end alike, followed by parts that keep the likeness, end alike. -/
theorem Decoded.Alike.andThen {α β : Type} {d e : Decoded α} {k m : α → State → Decoded β} (h : d.Alike e)
    (hk : ∀ a s t, s.SameView t → (k a s).Alike (m a t)) : (d.andThen k).Alike (e.andThen m) := by
  cases d <;> cases e <;> first | exact h.elim | skip
  · obtain ⟨rfl, h⟩ := h; exact hk _ _ _ h
  · exact h
  · exact h
  · exact h
  · trivial

end Sys2Proof.Machine
end

