-- ==== Sys2Proof/Tests/Slice0.lean ====
section
/-! SUPPORT. Tests of the decoder, of well-formedness and of single steps against the values that spec/95_test_vectors.md
gives, and for every obligation with hypotheses a concrete input that meets them all. -/

namespace Sys2Proof.Tests

open Sys2Proof.Machine

/-! ### Helpers -/

/-- The cells of consecutive bytes from an address. -/
def cells : Nat → List Nat → List (Nat × BitVec 8)
  | _, [] => []
  | a, b :: rest => (a, BitVec.ofNat 8 b) :: cells (a + 1) rest

/-- After reset, a stream of these bytes has been loaded and POS has come to `pos`. -/
def stream (bytes : List Nat) (pos : Nat) : State :=
  { State.reset with buf := cells 0 bytes, written := List.range bytes.length, len := bytes.length, pos := pos }

/-- The same with an error latched. -/
def failed (e : ErrCode) (bytes : List Nat) (pos : Nat) : State := { stream bytes pos with err := e }

/-- The same with acts of the host to come. -/
def withHost (acts : List HostAct) (s : State) : State := { s with host := acts }

/-- An outcome is a next state with a property. -/
def nextIs (o : Out) (p : State → Bool) : Bool :=
  match o with
  | .next t => p t
  | .fault _ => false
  | .refused _ => false

theorem of_nextIs {o : Out} {p : State → Bool} (h : nextIs o p = true) : ∃ t, o = .next t ∧ p t = true := by
  cases o with
  | next t => exact ⟨t, rfl, h⟩
  | fault f => cases h
  | refused r => cases h

/-- What a test looks at: RESP, POS, LEN and ERR. -/
def view (s : State) : Resp × Nat × Nat × ErrCode := (s.resp, s.pos, s.len, s.err)

/-- A command ends in a next state with this RESP, POS, LEN and ERR. -/
def gives (o : Out) (r : Resp) (pos len : Nat) (e : ErrCode) : Bool := nextIs o fun t => view t = (r, pos, len, e)

/-- An error response (spec/60_exceptions.md R205). -/
def errorResp (e : ErrCode) : Resp := { Resp.zero with status := e }

/-- A refused response (spec/60_exceptions.md R207). -/
def refusedResp (e : ErrCode) : Resp := { Resp.zero with status := e, refused := true }

/-- The stream of spec/95_test_vectors.md section 2.1. -/
def bytesV : List Nat := [0x01, 0x23, 0x45, 0x67, 0x89, 0xAB, 0xCD, 0xEF, 0xFF, 0x80]
/-- Source example E1. -/
def bytesE1 : List Nat := [0xD2, 0xFE, 0x28]
/-- Source example E2. -/
def bytesE2 : List Nat := [0xEE, 0x00, 0xD4, 0x0C, 0x82, 0x30, 0x60]
/-- Source example E3. -/
def bytesE3 : List Nat := [0x38, 0x00, 0x6F, 0x45, 0x29, 0x12, 0x00]
/-- The 17-group literal L2. -/
def bytesL2 : List Nat := [0x12, 0x3F, 0xFF, 0xFF, 0xFF, 0xFF, 0xFF, 0xFF, 0xFF, 0xFF, 0xFD, 0xC0]

/-! ### Decoding (spec/30_encoding.md R72, section 2.6 of the vectors) -/

theorem test_decode_nop : decode 0x0000#16 0x77#64 = .ok .nop := by decide
theorem test_decode_read_64 : decode 0x103F#16 0x5#64 = .ok (.read 63#6) := by decide
theorem test_decode_hdr : decode 0x2000#16 0#64 = .ok .hdr := by decide
theorem test_decode_lit : decode 0x3000#16 0#64 = .ok .lit := by decide
theorem test_decode_ltype : decode 0x4000#16 0#64 = .ok .ltype := by decide
theorem test_decode_count : decode 0x5000#16 0#64 = .ok .count := by decide
theorem test_decode_tlen : decode 0x6000#16 0#64 = .ok .tlen := by decide
theorem test_decode_pkt : decode 0x7000#16 0#64 = .ok .pkt := by decide
theorem test_decode_chk : decode 0x8000#16 0xFFFFFFFFFFFFFFFF#64 = .ok (.chk 0xFFFFFFFFFFFFFFFF#64) := by decide
theorem test_decode_start : decode 0x9000#16 0x40#64 = .ok (.start 64#64) := by decide
theorem test_decode_wrbuf : decode 0xA000#16 0x3F01#64 = .ok (.wrbuf 63#56 0x01#8) := by decide

/-! Ill-formed words and operands, one for each check -/

theorem test_reserved_opcode_F : wellFormed 0xF000#16 = false ∧ decode 0xF000#16 0 = .error (.reservedOpcode 0xF#4) := by
  decide
theorem test_reserved_opcode_B : wellFormed 0xB000#16 = false ∧ decode 0xB000#16 0 = .error (.reservedOpcode 0xB#4) := by
  decide
theorem test_read_with_rsv : wellFormed 0x1040#16 = false ∧ decode 0x1040#16 0 = .error (.reservedBits 0x1040#16) := by
  decide
theorem test_hdr_with_w : wellFormed 0x2001#16 = false ∧ decode 0x2001#16 0 = .error (.reservedBits 0x2001#16) := by
  decide
theorem test_chk_with_rsv : wellFormed 0x8800#16 = false ∧ decode 0x8800#16 0 = .error (.reservedBits 0x8800#16) := by
  decide
theorem test_widths : widthOk 0 = false ∧ widthOk 1 = true ∧ widthOk 64 = true ∧ widthOk 65 = false := by decide
theorem test_byte_operand : byteOk 255 = true ∧ byteOk 256 = false := by decide
theorem test_addr_operand : addrOk (2 ^ 56 - 1) = true ∧ addrOk (2 ^ 56) = false := by decide
theorem test_data_operand : dataOk (2 ^ 64 - 1) = true ∧ dataOk (2 ^ 64) = false := by decide

/-! ### Single steps -/

/-- S6. -/
theorem test_nop : gives (exec .nop State.reset) Resp.zero 0 0 .none = true := by decide
/-- S7. -/
theorem test_nop_refused : gives (exec .nop (failed .outOfBits [] 0)) (refusedResp .outOfBits) 0 0 .outOfBits = true := by
  decide
set_option maxRecDepth 8000 in
/-- V3: an odd offset and nine bytes. -/
theorem test_read_64_odd : gives (exec (.read 63) (stream bytesV 3))
    { Resp.zero with value := 0x091A2B3C4D5E6F7F, nbits := 64 } 67 10 .none = true := by decide
/-- V5: one bit short. -/
theorem test_read_short : gives (exec (.read 63) (stream bytesV 17)) (errorResp .outOfBits) 17 10 .outOfBits = true := by
  decide
/-- F4. -/
theorem test_hdr : gives (exec .hdr (stream bytesE2 0))
    { Resp.zero with value := 59, version := 7, typeId := 3, nbits := 6 } 6 7 .none = true := by decide
/-- F10. -/
theorem test_hdr_short : gives (exec .hdr (stream [0xFF, 0xFF] 11)) (errorResp .outOfBits) 11 2 .outOfBits = true := by
  decide
/-- F2. -/
theorem test_lit : gives (exec .lit (stream bytesE1 6))
    { Resp.zero with value := 2021, groups := 3, nbits := 15 } 21 3 .none = true := by decide
/-- F3. -/
theorem test_lit_cut : gives (exec .lit (stream [0xD2, 0xFE] 6)) (errorResp .outOfBits) 6 2 .outOfBits = true := by decide
/-- F5. -/
theorem test_ltype : gives (exec .ltype (stream bytesE2 6))
    { Resp.zero with value := 1, ltype := 1, nbits := 1 } 7 7 .none = true := by decide
/-- F9. -/
theorem test_count : gives (exec .count (stream [0xFF, 0xFF] 0))
    { Resp.zero with value := 2047, nbits := 11 } 11 2 .none = true := by decide
/-- F6. -/
theorem test_count_in_operator : gives (exec .count (stream bytesE2 7))
    { Resp.zero with value := 3, nbits := 11 } 18 7 .none = true := by decide
/-- F7. -/
theorem test_tlen : gives (exec .tlen (stream bytesE3 7))
    { Resp.zero with value := 27, target := 49, nbits := 15 } 22 7 .none = true := by decide
/-- L2: LITOVF and the low 64 bits. -/
theorem test_pkt_overflow : gives (exec .pkt (stream bytesL2 0))
    { Resp.zero with kind := .literal, typeId := 4, value := 0xFFFFFFFFFFFFFFFE, groups := 17, litovf := true,
                     nbits := 91 } 91 12 .none = true := by decide
/-- P-c. -/
theorem test_pkt_length : gives (exec .pkt (stream bytesE3 0))
    { Resp.zero with kind := .opLength, version := 1, typeId := 6, value := 27, target := 49, nbits := 22 } 22 7 .none
      = true := by decide
/-- C1. -/
theorem test_chk_more : gives (exec (.chk 49) (stream bytesE3 22)) { Resp.zero with value := 1 } 22 7 .none = true := by
  decide
/-- C3. -/
theorem test_chk_overshoot : gives (exec (.chk 21) (stream bytesE3 22)) (errorResp .mismatchedSubpacketLength) 22 7
    .mismatchedSubpacketLength = true := by decide
/-- S1. -/
theorem test_start : gives (exec (.start 64) State.reset) Resp.zero 0 64 .none = true := by decide
/-- S9. -/
theorem test_start_too_long : gives (exec (.start 65) (failed .mismatchedSubpacketLength [] 0)) (errorResp .badCommand)
    0 0 .mismatchedSubpacketLength = true := by decide
/-- S8: the byte is written and ERR stays. -/
theorem test_wrbuf_in_error : nextIs (exec (.wrbuf 1 0x05) (failed .mismatchedSubpacketLength [] 0))
    (fun t => t.readByte 1 == .ok 0x05 && t.err == .mismatchedSubpacketLength && t.resp == Resp.zero) = true := by decide
/-- S4. -/
theorem test_wrbuf_past_end : gives (exec (.wrbuf 64 0x01) State.reset) (errorResp .badCommand) 0 0 .badCommand = true := by
  decide
/-- V18: the model's fault. -/
theorem test_uninit_read : exec (.read 0) { State.reset with len := 1 } = .fault (.uninitRead 0) := rfl
/-- X3 and X6, through the step. -/
theorem test_malformed_words :
    gives (step (withHost [.command 0x1040 0] State.reset)) (errorResp .badCommand) 0 0 .badCommand = true ∧
    gives (step (withHost [.command 0x9001 1] (failed .badCommand [] 0))) (refusedResp .badCommand) 0 0 .badCommand
      = true := by decide
/-- The host's two questions, asked of READ 1 and WRBUF: the decoder's answer, and that the first step after reset runs
the command. -/
theorem test_table_word : decodeTableWord 16 0x1000 = some (.read 0) ∧ decodeTableWord 80 (0x3F01 * 2 ^ 16 + 0xA000) =
    some (.wrbuf 63 0x01) ∧ gives (step (State.reset.withFetchWord 16 0x1000)) (errorResp .outOfBits) 0 0 .outOfBits = true ∧
    nextIs (step (State.reset.withFetchWord 80 (0x3F01 * 2 ^ 16 + 0xA000))) (fun t => t.readByte 63 == .ok 0x01) = true := by
  decide
/-- R77's text forms. -/
theorem test_assembler_text : parseLine "WRBUF 2, 0x28" = some (.wrbuf 2 0x28) ∧ parseLine "read 64" = some (.read 64) ∧
    parseLine "LOADHEX \"D2FE28\"" = some (.loadHex "D2FE28".toList) ∧ parseLine "READ" = none := by decide
/-- R78, R53. -/
theorem test_loadhex : assembleLine Params.default (.loadHex "d2FE".toList) =
    some [.wrbuf 0 0xD2, .wrbuf 1 0xFE, .start 2] ∧ assembleLine Params.default (.loadHex "D2F".toList) = none := by decide

/-! ### Witnesses: a concrete input that meets all the hypotheses of an obligation -/

/-- The loaded state is at a step boundary, whatever its POS inside the stream; the witness of Inv. -/
theorem witness_inv (acts : List HostAct) (e : ErrCode) : (withHost acts (failed e [0xA5, 0x5A] 16)).Inv where
  bufBytes_pos := by change 1 ≤ 64; decide
  buf_wf := by change rising [0, 1] = true; decide
  buf_bound := fun a h => by
    change (cellAt [(0, 0xA5#8), (1, 0x5A#8)] a).isSome = true at h
    change a < 64
    simp only [cellAt] at h
    split at h
    · omega
    · split at h
      · omega
      · cases h
  written_wf := by change rising [0, 1] = true; decide
  written_known := fun a h => by
    change a ∈ [0, 1] at h
    change (cellAt [(0, 0xA5#8), (1, 0x5A#8)] a).isSome = true
    revert h; revert a; simp [cellAt]
  len_le := by change 2 ≤ 64; decide
  pos_le := by change 16 ≤ 8 * 2; decide
  refused := fun h => nomatch h
  status := fun h => absurd rfl h
  target_le := Nat.zero_le _
  nbits_le := Nat.zero_le _
  groups_le := Nat.zero_le _

theorem witness_EncodeOfDecodeIsTheWord : decode 0x103F#16 7 = .ok (.read 63) ∧ decode 0x0000#16 7 = .ok .nop ∧
    decode 0xA000#16 0xFFFFFFFFFFFFFFFF#64 = .ok (.wrbuf 0xFFFFFFFFFFFFFF#56 0xFF#8) := by decide

theorem witness_DataOperandUse : opField 0x103F#16 ≠ 0x8#4 ∧ opField 0x103F#16 ≠ 0x9#4 ∧ opField 0x103F#16 ≠ 0xA#4 := by
  decide

theorem witness_StepRunsTheDecodedCommand :
    (withHost [.command 0x7000 0] (stream bytesE1 0)).host = .command 0x7000 0 :: [] ∧ decode 0x7000#16 0 = .ok .pkt := by
  decide

/-- X5 and X6 (malformed), NOP (S7) and X7 with an error latched; X3, and a START, with none. -/
theorem witness_StepFollowsTheDispatchRule :
    (withHost [.command 0xA001 0] (failed .badCommand [] 0)).host = .command 0xA001 0 :: [] ∧
    (failed .badCommand [] 0).err ≠ .none ∧ State.reset.err = .none ∧
    ¬ (wellFormed 0xA001#16 = true ∧ (opField 0xA001#16 = 0x9#4 ∨ opField 0xA001#16 = 0xA#4)) ∧
    ¬ (wellFormed 0x0000#16 = true ∧ (opField 0x0000#16 = 0x9#4 ∨ opField 0x0000#16 = 0xA#4)) ∧
    wellFormed 0x1040#16 = false ∧ wellFormed 0x9000#16 = true ∧ opField 0x9000#16 = 0x9#4 ∧
    wellFormed 0xA000#16 = true ∧ opField 0xA000#16 = 0xA#4 ∧ wellFormed 0x103F#16 = true := by decide

theorem witness_IdleStepOnlyEndsTheResponsePulse : State.reset.host = [] := rfl

theorem witness_ResetActSetsTheResetValues :
    (withHost [.reset] (failed .outOfBits bytesE1 8)).host = .reset :: [] := rfl

/-- A WRBUF in flight over a byte with a known value and over one without, and another command. -/
theorem witness_ResetAbandonsTheCommandInFlight :
    (withHost [.resetInFlight 0xA000 0x255] (stream bytesE1 8)).host = .resetInFlight 0xA000 0x255 :: [] ∧
    decode 0xA000#16 0x255#64 = .ok (.wrbuf 2 0x55) ∧ cellAt (stream bytesE1 8).buf 2 = some 0x28 ∧
    decode 0xA000#16 0x355#64 = .ok (.wrbuf 3 0x55) ∧ cellAt (stream bytesE1 8).buf 3 = none ∧
    decode 0x7000#16 0x255#64 = .ok .pkt := by decide

theorem witness_ResetMeetsTheBoundaryConditions : 1 ≤ (Params.mk 1).bufBytes := by decide

theorem witness_EveryStepKeepsTheBoundaryConditions (e : ErrCode) :
    (withHost [.command 0xA000 0x3F01] (failed e [0xA5, 0x5A] 16)).Inv ∧
    ∃ t, step (withHost [.command 0xA000 0x3F01] (failed e [0xA5, 0x5A] 16)) = .next t :=
  ⟨witness_inv _ e, _, rfl⟩

theorem witness_OutputPortsFitTheirWidths : (withHost [] (failed .none [0xA5, 0x5A] 16)).Inv := witness_inv [] .none

/-- The widest read up to the last bit, the last bit alone, and one bit past it. -/
theorem witness_BitsReadsTheFieldMostSignificantFirst : (1 ≤ 64 ∧ 64 ≤ 64 ∧ (stream bytesV 16).Readable 16 64) ∧
    (1 ≤ 1 ∧ (stream bytesV 79).Readable 79 1) ∧ 8 * (stream bytesV 80).len < 80 + 1 := by
  unfold State.Readable State.Written; decide

set_option maxRecDepth 8000 in
theorem witness_BarrelShifterFormEqualsBits : 1 ≤ 64 ∧ 64 ≤ 64 ∧
    (stream bytesV 3).bits 3 64 = .ok (0x091A2B3C4D5E6F7F#64, 67) ∧ (stream bytesV 79).bits 79 1 = .ok (0#64, 80) := by
  decide

set_option maxRecDepth 8000 in
/-- V16's composition; and a second read that ends one bit past the stream. -/
theorem witness_NarrowReadsCompose : 3 + 61 ≤ 64 ∧ (stream bytesV 0).bits 0 3 = .ok (0#64, 0 + 3) ∧
    (stream bytesV 0).bits 3 61 = .ok (0x0123456789ABCDEF#64, 0 + 3 + 61) ∧ (stream bytesV 79).Written 79 1 ∧
    79 + 1 ≤ 8 * (stream bytesV 79).len ∧ 8 * (stream bytesV 79).len < 79 + 1 + 1 := by
  unfold State.Written; decide

theorem witness_LiteralLoopEndsByItself : (stream bytesE1 6).litFuel ≤ 5 ∧
    (stream bytesE1 6).litLoop 6 = .ok ⟨2021#64, 3, false, 21⟩ := by decide

/-- The same stream of one byte, with a byte beyond it written in one state only. -/
theorem witness_BytesAtOrAboveLenNeverMatter :
    ({ State.reset with buf := cells 0 [0xD2], written := [0], len := 1 } : State).SameStream
      { State.reset with buf := cells 0 [0xD2, 0xFE], written := [0, 1], len := 1 } := by
  refine ⟨fun i hi => ?_, rfl, rfl, rfl, rfl, rfl, rfl, rfl, rfl⟩
  have : i = 0 := by change i < 1 at hi; omega
  subst this; rfl

theorem witness_NopOnlyRespondsOk : State.reset.err = .none ∧ (failed .outOfBits [] 0).err ≠ .none := by decide

/-- The widest and the narrowest READ, each ending at the last bit, and one ending one bit past it. -/
theorem witness_ReadReturnsTheField : ((stream bytesV 16).err = .none ∧
      (stream bytesV 16).Readable (stream bytesV 16).pos ((63#6).toNat + 1)) ∧
    ((stream bytesV 79).err = .none ∧ (stream bytesV 79).Readable (stream bytesV 79).pos ((0#6).toNat + 1)) ∧
    (stream bytesV 17).err = .none ∧ 8 * (stream bytesV 17).len < (stream bytesV 17).pos + ((63#6).toNat + 1) := by
  unfold State.Readable State.Written; decide

/-- A field that ends at the last bit, and one that ends one bit past it. -/
theorem witness_HdrReturnsVersionAndType : (stream bytesE1 18).err = .none ∧ (stream bytesE1 18).Readable 18 6 ∧
    (stream bytesE1 19).err = .none ∧ 8 * (stream bytesE1 19).len < (stream bytesE1 19).pos + 6 := by
  unfold State.Readable State.Written; decide

/-- Literals of 1, 3 and 17 groups; F3, and a literal with no complete group. -/
theorem witness_LitReturnsTheLiteral : (stream bytesE1 6).err = .none ∧ (stream bytesE1 6).LiteralAt 6 3 ∧
    (stream bytesE1 16).LiteralAt 16 1 ∧ (stream bytesL2 6).LiteralAt 6 17 ∧ 16 ≤ 16 ∧
    (stream [0xD2, 0xFE] 6).err = .none ∧ (stream [0xD2, 0xFE] 6).LiteralCut 6 2 ∧
    (stream [0xD2, 0xFE] 12).LiteralCut 12 0 := by
  unfold State.LiteralAt State.LiteralCut State.Readable State.Written; decide

/-- A field that ends at the last bit, and one that ends one bit past it. -/
theorem witness_LtypeReturnsTheBit : (stream bytesE1 23).err = .none ∧ (stream bytesE1 23).Readable 23 1 ∧
    (stream bytesE1 24).err = .none ∧ 8 * (stream bytesE1 24).len < (stream bytesE1 24).pos + 1 := by
  unfold State.Readable State.Written; decide

/-- A field that ends at the last bit, and one that ends one bit past it. -/
theorem witness_CountReturnsTheCount : (stream bytesE1 13).err = .none ∧ (stream bytesE1 13).Readable 13 11 ∧
    (stream bytesE1 14).err = .none ∧ 8 * (stream bytesE1 14).len < (stream bytesE1 14).pos + 11 := by
  unfold State.Readable State.Written; decide

/-- A field that ends at the last bit, and one that ends one bit past it. -/
theorem witness_TlenReturnsLengthAndTarget : (stream bytesE1 9).err = .none ∧ (stream bytesE1 9).Readable 9 15 ∧
    (stream bytesE1 10).err = .none ∧ 8 * (stream bytesE1 10).len < (stream bytesE1 10).pos + 15 := by
  unfold State.Readable State.Written; decide

/-- The literal clause of PKT, at 17 groups. -/
theorem witness_PktReturnsOnePacketHead_literal : (stream bytesL2 0).err = .none ∧ (stream bytesL2 0).Readable 0 6 ∧
    (stream bytesL2 0).fieldNat 3 3 = 4 ∧ (stream bytesL2 0).LiteralAt 6 17 := by
  unfold State.LiteralAt State.Readable State.Written; decide

theorem witness_PktReturnsOnePacketHead_count : (stream bytesE2 0).err = .none ∧ (stream bytesE2 0).Readable 0 18 ∧
    (stream bytesE2 0).fieldNat 3 3 ≠ 4 ∧ (stream bytesE2 0).bitAt 6 = 1 := by
  unfold State.Readable State.Written; decide

theorem witness_PktReturnsOnePacketHead_length : (stream bytesE3 0).err = .none ∧ (stream bytesE3 0).Readable 0 22 ∧
    (stream bytesE3 0).fieldNat 3 3 ≠ 4 ∧ (stream bytesE3 0).bitAt 6 = 0 := by
  unfold State.Readable State.Written; decide

/-- One below the target, at it, and one above. -/
theorem witness_ChkComparesPosWithTheTarget : (stream bytesE3 22).err = .none ∧
    (stream bytesE3 22).pos < (23#64).toNat ∧ (stream bytesE3 22).pos = (22#64).toNat ∧
    (21#64).toNat < (stream bytesE3 22).pos := by decide

/-- S1 and S2: at BUF_BYTES and one above it. -/
theorem witness_StartBeginsAStream : (64#64).toNat ≤ State.reset.params.bufBytes ∧
    State.reset.params.bufBytes < (65#64).toNat := by decide

/-- S3 and S4: the last byte, and the address after it. -/
theorem witness_WrbufWritesOneByte : wrbufAddr 63#56 < State.reset.params.bufBytes ∧
    State.reset.params.bufBytes ≤ wrbufAddr 64#56 := by decide

/-- P-h, P-f, P-g and one bit short of each of the other fields. -/
theorem witness_PktReturnsOnePacketHead_cut :
    (8 * (stream [0xD2] 3).len < (stream [0xD2] 3).pos + 6 ∧ (stream [0xD2] 3).Loaded) ∧
    ((stream [0xD2, 0xFE] 0).fieldNat 3 3 = 4 ∧ (stream [0xD2, 0xFE] 0).LiteralCut 6 2 ∧ (stream [0xD2, 0xFE] 0).Loaded) ∧
    ((stream [0xE0, 0xE0] 10).fieldNat 13 3 ≠ 4 ∧ 8 * (stream [0xE0, 0xE0] 10).len < 10 + 7 ∧
      (stream [0xE0, 0xE0] 10).Loaded) ∧
    ((stream [0xE2] 0).fieldNat 3 3 ≠ 4 ∧ (stream [0xE2] 0).bitAt 6 = 1 ∧ 8 * (stream [0xE2] 0).len < 18 ∧
      (stream [0xE2] 0).Loaded) ∧
    ((stream [0xE0] 0).fieldNat 3 3 ≠ 4 ∧ (stream [0xE0] 0).bitAt 6 = 0 ∧ 8 * (stream [0xE0] 0).len < 22 ∧
      (stream [0xE0] 0).Loaded ∧ (stream [0xE0] 0).err = .none) := by
  unfold State.LiteralCut State.Written State.Loaded; decide

theorem witness_CommandsAreRefusedWhileAnErrorIsLatched : runsInError .pkt = false ∧
    (failed .mismatchedSubpacketLength bytesE1 0).err ≠ .none := by decide

/-- A response that carries an error: raised, refused, and raised by a word that is not well-formed. -/
theorem witness_ErrorsArePrecise :
    (∃ t, accept 0x7000 0 (stream [0xD2] 0) = .next t ∧ decide (t.resp.status ≠ .none) = true) ∧
    (∃ t, accept 0x0000 0 (failed .outOfBits [] 0) = .next t ∧ decide (t.resp.status ≠ .none) = true) ∧
    ∃ t, accept 0xB000 0 (stream [] 0) = .next t ∧ decide (t.resp.status ≠ .none) = true :=
  ⟨of_nextIs (by decide), of_nextIs (by decide), of_nextIs (by decide)⟩

/-- One response for each error. -/
theorem witness_EachErrorHasItsCommands :
    (∃ t, accept 0x7000 0 (stream [0xD2] 0) = .next t ∧ (!t.resp.refused && t.resp.status == .outOfBits) = true) ∧
    (∃ t, accept 0x8000 0x15 (stream bytesE3 22) = .next t ∧
      (!t.resp.refused && t.resp.status == .mismatchedSubpacketLength) = true) ∧
    (∃ t, accept 0x9000 65 State.reset = .next t ∧ (!t.resp.refused && t.resp.status == .badCommand) = true) ∧
    ∃ t, accept 0xF000 0 State.reset = .next t ∧ (!t.resp.refused && t.resp.status == .badCommand) = true :=
  ⟨of_nextIs (by decide), of_nextIs (by decide), of_nextIs (by decide), of_nextIs (by decide)⟩

/-- S9, and a WRBUF at BUF_BYTES; START and WRBUF at their last operands. -/
theorem witness_ErrorsDoNotNestOrLockUp : (failed .mismatchedSubpacketLength [] 0).err ≠ .none ∧
    (∃ t, accept 0x9000 65 (failed .mismatchedSubpacketLength [] 0) = .next t ∧
      (!t.resp.refused && t.resp.status != .none) = true) ∧
    (∃ t, accept 0xA000 0x4001 (failed .mismatchedSubpacketLength [] 0) = .next t ∧
      (!t.resp.refused && t.resp.status != .none) = true) ∧
    (64#64).toNat ≤ (failed .mismatchedSubpacketLength [] 0).params.bufBytes ∧
    wrbufAddr 63#56 < (failed .mismatchedSubpacketLength [] 0).params.bufBytes :=
  ⟨by decide, of_nextIs (by decide), of_nextIs (by decide), by decide, by decide⟩

/-- Refused, START at BUF_BYTES and one above, and the two resets. -/
theorem witness_OnlyStartOrResetClearsErr : (failed .outOfBits [] 0).err ≠ .none ∧
    (∃ t, step (withHost [.command 0x0000 0] (failed .outOfBits [] 0)) = .next t) ∧
    (∃ t, step (withHost [.command 0x9000 64] (failed .outOfBits [] 0)) = .next t) ∧
    (∃ t, step (withHost [.command 0x9000 65] (failed .outOfBits [] 0)) = .next t) ∧
    (∃ t, step (withHost [.reset] (failed .outOfBits [] 0)) = .next t) ∧
    ∃ t, step (withHost [.resetInFlight 0x0000 0] (failed .outOfBits [] 0)) = .next t :=
  ⟨by decide, ⟨_, rfl⟩, ⟨_, rfl⟩, ⟨_, rfl⟩, ⟨_, rfl⟩, ⟨_, rfl⟩⟩

/-- A stream of these bytes written, with LEN one more, so that the byte after them was never written. -/
def oneShort (bytes : List Nat) (pos : Nat) : State := { stream bytes pos with len := bytes.length + 1 }

/-- The clause of the commands of one read: V18, and an HDR whose sixth bit is the first of an unwritten byte. -/
theorem witness_ReadingAnUnwrittenByteFaults_singleRead :
    (singleRead (.read 0) = some 1 ∧ (oneShort [] 0).err = .none ∧ (oneShort [] 0).FirstUnwritten 0 1 0) ∧
    singleRead .hdr = some 6 ∧ (oneShort [0xD2] 3).err = .none ∧ (oneShort [0xD2] 3).FirstUnwritten 3 6 5 := by
  unfold State.FirstUnwritten State.Written; decide

/-- The clause of LIT: the first bit of its first group, and a later bit of its second group. -/
theorem witness_ReadingAnUnwrittenByteFaults_lit : (oneShort [] 0).LiteralUnwritten 0 0 0 ∧
    (oneShort [] 0).err = .none ∧ (oneShort [0x80] 0).LiteralUnwritten 0 1 3 ∧ (oneShort [0x80] 0).err = .none := by
  unfold State.LiteralUnwritten State.FirstUnwritten State.Written; decide

/-- The six clauses of PKT, in their order; of the literal body the first group and the second. -/
theorem witness_ReadingAnUnwrittenByteFaults_pkt :
    (oneShort [] 0).FirstUnwritten 0 3 0 ∧
    ((oneShort [0xD2] 3).Readable 3 3 ∧ (oneShort [0xD2] 3).FirstUnwritten 6 3 2) ∧
    ((oneShort [0xD2] 0).Readable 0 6 ∧ (oneShort [0xD2] 0).fieldNat 3 3 = 4 ∧
      (oneShort [0xD2] 0).LiteralUnwritten 6 0 2) ∧
    ((oneShort [0xD2, 0xFE] 0).Readable 0 6 ∧ (oneShort [0xD2, 0xFE] 0).fieldNat 3 3 = 4 ∧
      (oneShort [0xD2, 0xFE] 0).LiteralUnwritten 6 2 0) ∧
    ((oneShort [0x03] 2).Readable 2 6 ∧ (oneShort [0x03] 2).fieldNat 5 3 ≠ 4 ∧ (oneShort [0x03] 2).FirstUnwritten 8 1 0) ∧
    ((oneShort [0xEE, 0x00] 0).Readable 0 7 ∧ (oneShort [0xEE, 0x00] 0).fieldNat 3 3 ≠ 4 ∧
      (oneShort [0xEE, 0x00] 0).bitAt 6 = 1 ∧ (oneShort [0xEE, 0x00] 0).FirstUnwritten 7 11 9) ∧
    ((oneShort [0x38, 0x00] 0).Readable 0 7 ∧ (oneShort [0x38, 0x00] 0).fieldNat 3 3 ≠ 4 ∧
      (oneShort [0x38, 0x00] 0).bitAt 6 = 0 ∧ (oneShort [0x38, 0x00] 0).FirstUnwritten 7 15 9) ∧
    ∀ s ∈ [oneShort [] 0, oneShort [0xD2] 3, oneShort [0xD2] 0, oneShort [0xD2, 0xFE] 0, oneShort [0x03] 2,
      oneShort [0xEE, 0x00] 0, oneShort [0x38, 0x00] 0], s.err = .none := by
  unfold State.LiteralUnwritten State.FirstUnwritten State.Readable State.Written
  refine ⟨?_, ?_, ?_, ?_, ?_, ?_, ?_, ?_⟩ <;> decide

/-- The clause of the commands that succeed: a PKT that reads its bits beside a byte never written. -/
theorem witness_ReadingAnUnwrittenByteFaults_success : isExtraction .pkt = true ∧
    ∃ t, exec .pkt (oneShort bytesE1 0) = .next t ∧ (t.resp.status == .none) = true := ⟨rfl, of_nextIs (by decide)⟩

theorem witness_OnlyUninitReadStopsACommand :
    exec (.read 0) { State.reset with len := 1 } = .fault (.uninitRead 0) := rfl

theorem witness_EveryCommandAnswersOnALoadedStream : (stream bytesE1 0).Loaded := by unfold State.Loaded; decide

theorem witness_PosAdvancesByNbitsBetweenStarts : (∀ len, Instr.pkt ≠ .start len) ∧
    (∃ t, exec .pkt (stream bytesE1 0) = .next t ∧ (t.pos == 21) = true) ∧
    (∃ t, exec .pkt (stream [0xD2] 0) = .next t ∧ (t.resp.status == .outOfBits) = true) ∧ isExtraction .nop = false :=
  ⟨fun _ h => (nomatch h), of_nextIs (by decide), of_nextIs (by decide), rfl⟩

/-- A read that succeeds, and one that fails. -/
theorem witness_ExtractionFrame : isExtraction .lit = true ∧
    (∃ t, exec .lit (stream bytesE1 6) = .next t ∧ (t.resp.status == .none) = true) ∧
    ∃ t, exec .lit (stream bytesE1 11) = .next t ∧ (t.resp.status == .none) = true :=
  ⟨rfl, of_nextIs (by decide), of_nextIs (by decide)⟩

theorem witness_NopAndChkFrame : (∃ t, exec .nop State.reset = .next t ∧ (t.resp.status == .none) = true) ∧
    (∃ t, exec (.chk 22) (stream bytesE3 22) = .next t ∧ (t.resp.status == .none) = true) ∧
    ∃ t, exec (.chk 21) (stream bytesE3 22) = .next t ∧ (t.resp.status == .mismatchedSubpacketLength) = true :=
  ⟨of_nextIs (by decide), of_nextIs (by decide), of_nextIs (by decide)⟩

theorem witness_StartFrame : (∃ t, exec (.start 64) State.reset = .next t ∧ (t.resp.status == .none) = true) ∧
    ∃ t, exec (.start 65) State.reset = .next t ∧ (t.resp.status == .badCommand) = true :=
  ⟨of_nextIs (by decide), of_nextIs (by decide)⟩

theorem witness_WrbufFrame : (∃ t, exec (.wrbuf 63 1) State.reset = .next t ∧ (t.resp.status == .none) = true) ∧
    ∃ t, exec (.wrbuf 64 1) State.reset = .next t ∧ (t.resp.status == .badCommand) = true :=
  ⟨of_nextIs (by decide), of_nextIs (by decide)⟩

theorem witness_UnnamedResponseFieldsAreZero :
    ∃ t, exec .pkt (stream bytesE3 0) = .next t ∧ (t.resp.kind == .opLength) = true := of_nextIs (by decide)

/-- Two reads inside the stream, and two of which the second fails. -/
theorem witness_ReadsCompose : (2#6).toNat + 1 = ((0#6).toNat + 1) + ((1#6).toNat + 1) ∧ (stream bytesE1 21).err = .none ∧
    (∃ t1, exec (.read 0) (stream bytesE1 21) = .next t1 ∧ (t1.resp.status == .none && t1.pos == 22 &&
      nextIs (exec (.read 1) t1) fun t2 => t2.resp.status == .none) = true) ∧
    8 * (stream bytesE1 22).len < (stream bytesE1 22).pos + ((2#6).toNat + 1) ∧
    ∃ t1, exec (.read 0) (stream bytesE1 22) = .next t1 ∧ (t1.resp.status == .none && t1.pos == 23 &&
      nextIs (exec (.read 1) t1) fun t2 => t2.resp.status == .outOfBits) = true :=
  ⟨by decide, rfl, of_nextIs (by decide), by decide, of_nextIs (by decide)⟩

/-- The three kinds of packet. -/
theorem witness_GranularFormEqualsPkt :
    (∃ t, exec .pkt (stream bytesE1 0) = .next t ∧ (t.resp.status == .none && t.resp.kind == .literal) = true) ∧
    (∃ t, exec .pkt (stream bytesE2 0) = .next t ∧ (t.resp.status == .none && t.resp.kind == .opCount) = true) ∧
    ∃ t, exec .pkt (stream bytesE3 0) = .next t ∧ (t.resp.status == .none && t.resp.kind == .opLength) = true :=
  ⟨of_nextIs (by decide), of_nextIs (by decide), of_nextIs (by decide)⟩

theorem witness_LoadLeavesTheBytesAsTheStream :
    assembleLine (failed .outOfBits bytesV 3).params (.load [0xD2, 0xFE]) =
      some [.wrbuf 0 0xD2, .wrbuf 1 0xFE, .start 2] := by decide

theorem witness_AssemblerEncodesTheOperands : (1 ≤ 64 ∧ 64 ≤ 64) ∧ (0 < 1 ∧ 64 < 65) ∧ 2 ^ 64 - 1 < 2 ^ 64 ∧
    (2 ^ 56 - 1 < 2 ^ 56 ∧ 255 ≤ 255) ∧ 2 ^ 56 ≤ 2 ^ 56 ∧ 255 < 256 := by decide

/-- The pins with a command offered, and with nothing. -/
def offerPkt : Pins := { rst := false, cmdValid := true, cmdWord := 0x7000, cmdData := 0 }
def quiet : Pins := { rst := false, cmdValid := false, cmdWord := 0, cmdData := 0 }
def resetPins : Pins := { quiet with rst := true }

/-- Latency 1, and 3 with a second command offered in vain meanwhile. -/
theorem witness_ClockedCommandHasTheEffectOfOneStep : 1 ≤ 1 ∧ 1 ≤ 3 ∧
    (Clocked.mk (stream bytesE1 0) none).inFlight = none ∧ offerPkt.rst = false ∧ offerPkt.cmdValid = true ∧
    [quiet].length = 1 ∧ [offerPkt, quiet, quiet].length = 3 ∧ ∀ q ∈ [offerPkt, quiet, quiet], q.rst = false := by decide

theorem witness_OutputsHoldWhileACommandIsInFlight :
    (Clocked.mk (stream bytesE1 0) (some ⟨0x7000, 0, 2⟩)).inFlight = some ⟨0x7000, 0, 2⟩ ∧ quiet.rst = false ∧ 1 < 2 := by
  decide

theorem witness_ResponsePulseLastsOneCycle :
    (Clocked.mk (stream bytesE1 0) (some ⟨0x7000, 0, 1⟩)).inFlight = some ⟨0x7000, 0, 1⟩ ∧ 1 ≤ 1 ∧ quiet.rst = false ∧
    offerPkt.rst = false ∧ ∃ c, clockEdge 1 quiet (Clocked.mk (stream bytesE1 0) (some ⟨0x7000, 0, 1⟩)) = .next c :=
  ⟨rfl, by decide, rfl, rfl, _, rfl⟩

theorem witness_ClockedResetIsTheResetAct : resetPins.rst = true ∧
    (Clocked.mk (stream bytesE1 0) none).inFlight = none ∧
    (Clocked.mk (stream bytesE1 0) (some ⟨0xA000, 0x155, 2⟩)).inFlight = some ⟨0xA000, 0x155, 2⟩ := by decide

theorem witness_WholeDecodeEnds : (stream bytesE3 0).Loaded ∧ (stream [] 0).Loaded := by unfold State.Loaded; decide

/-- What a decode returned: how many tokens, the depth, and the position after it. -/
def decodedShape (d : Decoded (Packet × List Resp)) : Option (Nat × Nat × Nat) :=
  match d with
  | .done p t => some (p.2.length, p.1.depth, t.pos)
  | .failed _ _ => none
  | .stopped _ => none
  | .refused _ => none
  | .outOfFuel => none

theorem of_decodedShape {d : Decoded (Packet × List Resp)} {x : Nat × Nat × Nat} (h : decodedShape d = some x) :
    ∃ p tokens t, d = .done (p, tokens) t := by
  cases d with
  | done p t => exact ⟨p.1, p.2, t, rfl⟩
  | failed e t => cases h
  | stopped f => cases h
  | refused r => cases h
  | outOfFuel => cases h

set_option maxRecDepth 8000 in
/-- Source example E3: three tokens, depth 2, and 49 bits. -/
theorem test_decode_E3 : decodedShape (decodeStream (stream bytesE3 0)) = some (3, 2, 49) := by decide +kernel

theorem witness_NestingDepthIsBounded : ∃ p tokens t, decodeStream (stream bytesE3 0) = .done (p, tokens) t :=
  of_decodedShape test_decode_E3

theorem witness_TokenStreamRebuildsTheTree : 8 * (stream bytesE3 0).len + 32767 < 2 ^ 64 ∧
    ∃ p tokens t, decodeStream (stream bytesE3 0) = .done (p, tokens) t := ⟨by decide, witness_NestingDepthIsBounded⟩

/-- Lengths and skips at their bounds: a full buffer and one byte too many; a skip to the end and one bit past it. -/
theorem witness_WholeDecodeIsLoadSkipAndOneDecode :
    ((List.replicate 64 (0 : Byte)).length ≤ State.reset.params.bufBytes ∧
      (List.replicate 64 (0 : Byte)).length ≤ 2 ^ 56) ∧
    State.reset.params.bufBytes < (List.replicate 65 (0 : Byte)).length ∧
    8 * ([0xD2, 0xFE, 0x28] : List Byte).length < 25 ∧ 24 ≤ 8 * ([0xD2, 0xFE, 0x28] : List Byte).length := by decide

set_option maxRecDepth 8000 in
/-- Source example E1 moved three bits on: one literal token, depth 1, and POS 3 + 21. -/
theorem test_whole_decode_skips : (wholeDecode [0x1A, 0x5F, 0xC5] 3 State.reset).bind decodedShape = some (1, 1, 24) := by
  decide +kernel

/-- Two states of different BCXs, one with an error latched and another stream loaded. -/
theorem witness_DecodingIsAFunctionOfBytesAndOffset : (∃ d, wholeDecode [0x1A, 0x5F, 0xC5] 3 State.reset = some d) ∧
    ∃ e, wholeDecode [0x1A, 0x5F, 0xC5] 3 { failed .outOfBits bytesV 3 with params := { bufBytes := 10 } } = some e :=
  ⟨⟨_, rfl⟩, ⟨_, rfl⟩⟩

end Sys2Proof.Tests
end

section
/-! The family of spec/00_scope.md: an offered command is one exec, the state after reset, the widths of the output ports,
and a command's whole run at the pins. -/

namespace Sys2Proof.Machine

/-! ### The step on an offered command (spec/60_exceptions.md R209) -/

/-- A step in which the host offers a word accepts it, with that act off the list. -/
theorem step_of_command {s : State} {cmd : CmdWord} {data : Word64} {rest : List HostAct}
    (h : s.host = .command cmd data :: rest) : step s = accept cmd data { s with host := rest } := by
  simp only [step, portStep, h, perform]

/-- An accepted word that decodes is exec of its command. -/
theorem accept_of_decode {cmd : CmdWord} {data : Word64} {i : Instr} (s : State) (h : decode cmd data = .ok i) :
    accept cmd data s = exec i s := by
  simp only [accept, h]

/-- Settles O7: the act is taken off the list, and the accepted word is exec of its command. -/
theorem stepRunsTheDecodedCommand : Obligations.StepRunsTheDecodedCommand := by
  intro s cmd data rest i hhost hdec
  rw [step_of_command hhost, accept_of_decode _ hdec]

/-! ### The state after power-up and reset (spec/10_state.md R42) -/

/-- No byte is marked as written, so a stream read of any is the fault of spec/20_memory.md R62. -/
theorem resetOf_readByte (p : Params) (a : Nat) : (State.resetOf p).readByte a = .error (.uninitRead a) :=
  readByte_unknown _ a rfl

/-- Settles O12: the fields by the definition of the reset state, and its bytes by `resetOf_readByte`. -/
theorem resetStateHoldsTheResetValues : Obligations.ResetStateHoldsTheResetValues :=
  ⟨fun p => ⟨rfl, rfl, rfl, rfl, rfl, rfl, resetOf_readByte p⟩, Params.default, rfl⟩

/-- The empty BUF and the zero LEN, POS, ERR and RESP meet every clause of the invariant. -/
theorem resetOf_inv (p : Params) (hp : 1 ≤ p.bufBytes) : (State.resetOf p).Inv where
  bufBytes_pos := hp
  buf_wf := rfl
  buf_bound := fun _ h => nomatch h
  written_wf := rfl
  written_known := fun _ h => nomatch h
  len_le := Nat.zero_le _
  pos_le := Nat.le_refl 0
  refused := fun h => nomatch h
  status := fun h => absurd rfl h
  target_le := Nat.zero_le _
  nbits_le := Nat.zero_le _
  groups_le := Nat.zero_le _

/-- Settles O13: `resetOf_inv`, for every parameter and for State.reset's 64 bytes. -/
theorem resetMeetsTheBoundaryConditions : Obligations.ResetMeetsTheBoundaryConditions :=
  ⟨resetOf_inv, resetOf_inv Params.default (by decide)⟩

/-! ### The widths of the output ports (spec/10_state.md R38) -/

/-- A position or count of bits in BUF fits PW. -/
theorem lt_two_pow_posWidth (p : Params) {x : Nat} (h : x ≤ 8 * p.bufBytes) : x < 2 ^ p.posWidth :=
  lt_two_pow_ceilLog2 _ _ (Nat.lt_succ_of_le h)

/-- A stream length fits LW. -/
theorem lt_two_pow_lenWidth (p : Params) {x : Nat} (h : x ≤ p.bufBytes) : x < 2 ^ p.lenWidth :=
  lt_two_pow_ceilLog2 _ _ (Nat.lt_succ_of_le h)

/-- The end of a packet whose 15-bit total length begins inside BUF fits TW. -/
theorem lt_two_pow_targetWidth (p : Params) {x : Nat} (h : x ≤ 8 * p.bufBytes + 32767) : x < 2 ^ p.targetWidth :=
  lt_two_pow_ceilLog2 _ _ (Nat.lt_succ_of_le h)

/-- POS stays inside BUF. -/
theorem State.Inv.pos_le_bufBytes {s : State} (h : s.Inv) : s.pos ≤ 8 * s.params.bufBytes :=
  h.pos_le.trans (Nat.mul_le_mul_left 8 h.len_le)

/-- GROUPS is at most the bits it counts five at a time. -/
theorem State.Inv.groups_le_bufBits {s : State} (h : s.Inv) : s.resp.groups ≤ 8 * s.params.bufBytes := by
  have := h.groups_le
  omega

/-- Settles O15: the invariant's range of each value is the range that its port's width was computed from. -/
theorem outputPortsFitTheirWidths : Obligations.OutputPortsFitTheirWidths := fun s h =>
  ⟨lt_two_pow_posWidth s.params h.pos_le_bufBytes, lt_two_pow_lenWidth s.params h.len_le,
    lt_two_pow_posWidth s.params h.nbits_le, lt_two_pow_posWidth s.params h.groups_le_bufBits,
    lt_two_pow_targetWidth s.params h.target_le⟩

/-! ### A command at the pins, edge by edge (spec/10_state.md R39) -/

/-- With nothing in flight, an edge with cmd_valid only ends the response pulse and puts the command in flight. -/
theorem clockEdge_accepts (latency : Nat) {c : Clocked} {p : Pins} (hc : c.inFlight = none) (hr : p.rst = false)
    (hv : p.cmdValid = true) :
    clockEdge latency p c = .next { core := c.core.idle, inFlight := some ⟨p.cmdWord, p.cmdData, latency⟩ } := by
  simp [clockEdge, hc, hr, hv]

/-- An edge that is not the command's last only counts down. -/
theorem clockEdge_waits (latency : Nat) (s : State) {p : Pins} {f : InFlight} (hr : p.rst = false) (hf : 1 < f.left) :
    clockEdge latency p { core := s, inFlight := some f } =
      .next { core := s, inFlight := some { f with left := f.left - 1 } } := by
  simp [clockEdge, hr, Nat.not_le.mpr hf]

/-- The last edge of a command has the effect of accepting it in the transaction model. -/
theorem clockEdge_ends (latency : Nat) (s : State) {p : Pins} {f : InFlight} (hr : p.rst = false) (hf : f.left ≤ 1) :
    clockEdge latency p { core := s, inFlight := some f } = endCommand (accept f.cmd f.data s) := by
  simp [clockEdge, hr, hf]

/-- A run whose first edge leaves a next state goes on from it. -/
theorem clockRun_cons {latency : Nat} {p : Pins} {c c' : Clocked} (h : clockEdge latency p c = .next c')
    (rest : List Pins) : clockRun latency (p :: rest) c = clockRun latency rest c' := by
  simp only [clockRun, h]

/-- A run of one edge is that edge. -/
theorem clockRun_singleton (latency : Nat) (p : Pins) (c : Clocked) : clockRun latency [p] c = clockEdge latency p c := by
  simp only [clockRun]
  cases clockEdge latency p c <;> rfl

/-- A command with as many edges left as the run has, none of them with rst, ends at the last with its whole effect. -/
theorem clockRun_inFlight (latency : Nat) (s : State) (p : Pins) (rest : List Pins) (f : InFlight)
    (hleft : f.left = rest.length + 1) (hrst : ∀ q ∈ p :: rest, q.rst = false) :
    clockRun latency (p :: rest) { core := s, inFlight := some f } = endCommand (accept f.cmd f.data s) := by
  induction rest generalizing p f with
  | nil => rw [clockRun_singleton, clockEdge_ends latency s (hrst p List.mem_cons_self) hleft.le]
  | cons q rest ih =>
    obtain ⟨hp, hrest⟩ := List.forall_mem_cons.mp hrst
    have hwait : 1 < f.left := by rw [hleft, List.length_cons]; omega
    rw [clockRun_cons (clockEdge_waits latency s hp hwait)]
    exact ih q { f with left := f.left - 1 } (by simp [hleft]) hrest

/-- Settles O51: the first edge puts the command in flight with LATENCY edges left, and the rest of the run is
`clockRun_inFlight`. -/
theorem clockedCommandHasTheEffectOfOneStep : Obligations.ClockedCommandHasTheEffectOfOneStep := by
  intro latency c p rest hlat hc hr hv hlen hrst
  rw [clockRun_cons (clockEdge_accepts latency hc hr hv)]
  cases rest with
  | nil => subst hlen; exact absurd hlat (by decide)
  | cons q rest => exact clockRun_inFlight latency c.core.idle q rest _ hlen.symm hrst

end Sys2Proof.Machine
end

section
/-! The family of spec/10_state.md: what a decoded word says of its fields, what a step and an accepted word can do, and
the invariant of the step boundary. -/

namespace Sys2Proof.Machine

open Sys2Proof.Laws.EncodedWordIsWellFormed (opcodeOf)

/-! ### The decoder by the fields of the word (spec/30_encoding.md R72, R74) -/

theorem decodePlain_eq_ok {cmd : CmdWord} {i j : Instr} :
    decodePlain cmd i = .ok j ↔ (rsvField cmd = 0 ∧ wField cmd = 0) ∧ i = j := by
  unfold decodePlain
  split
  · simp [*]
  · exact iff_of_false nofun fun h => absurd h.1 ‹_›

/-- A word that decodes carries the opcode of its command. -/
theorem decode_opField {cmd : CmdWord} {data : Word64} {i : Instr} (h : decode cmd data = .ok i) :
    opField cmd = opcodeOf i := by
  apply BitVec.eq_of_toNat_eq
  unfold decode at h
  split at h
  case h_2 hop =>
    split at h
    · injection h with h; subst h; exact hop
    · cases h
  case h_12 => cases h
  all_goals
    rename_i hop
    obtain ⟨_, rfl⟩ := decodePlain_eq_ok.mp h
    exact hop

/-- The words that decode are the well-formed ones. -/
theorem decode_ok_iff_wellFormed (cmd : CmdWord) (data : Word64) :
    (∃ i, decode cmd data = .ok i) ↔ wellFormed cmd = true := by
  rw [wellFormed_iff]
  unfold decode
  split
  case h_2 hop =>
    have hop : opField cmd = 1#4 := BitVec.eq_of_toNat_eq hop
    split
    · exact iff_of_true ⟨_, rfl⟩ (.inl ⟨hop, ‹_›⟩)
    · exact iff_of_false nofun (by rintro (⟨_, hrsv⟩ | ⟨hne, _⟩) <;> contradiction)
  case h_12 =>
    refine iff_of_false nofun ?_
    rintro (⟨hop, _⟩ | ⟨_, hle, _⟩)
    · simp_all
    · simp only [imp_false] at *
      omega
  all_goals simp [← BitVec.toNat_inj (x := opField cmd), *, decodePlain_eq_ok]

/-- The words that decode to a START are 0x9000, with the length in DATA. -/
theorem decode_start_inv {cmd : CmdWord} {data len : Word64} (h : decode cmd data = .ok (.start len)) :
    cmd = 0x9000#16 ∧ data = len := by
  have hop : opField cmd = 0x9#4 := decode_opField h
  simp only [decode, hop] at h
  obtain ⟨⟨hrsv, hw⟩, hi⟩ := decodePlain_eq_ok.mp h
  refine ⟨BitVec.eq_of_toNat_eq ?_, by injection hi⟩
  rw [toNat_cmd, hop, hrsv, hw]
  rfl

/-- The commands that run while ERR != 0 are those of opcodes 0x9 and 0xA (spec/60_exceptions.md R209). -/
theorem runsInError_iff_opcodeOf (i : Instr) : runsInError i = true ↔ opcodeOf i = 0x9#4 ∨ opcodeOf i = 0xA#4 := by
  cases i <;> simp [runsInError, opcodeOf]

/-! ### What a step and an accepted word can do (spec/60_exceptions.md R209) -/

/-- Everything a step can do, by the host's act. -/
theorem step_next_cases {s t : State} (h : step s = .next t) :
    (s.host = [] ∧ t = s.idle) ∨
    (∃ cmd data rest, s.host = .command cmd data :: rest ∧ accept cmd data { s with host := rest } = .next t) ∨
    (∃ rest, s.host = .reset :: rest ∧ t = State.hardReset { s with host := rest }) ∨
    ∃ cmd data rest, s.host = .resetInFlight cmd data :: rest ∧
      t = State.abandon { s with host := rest } cmd data := by
  unfold step portStep at h
  split at h
  case h_1 hhost => cases h; exact .inl ⟨hhost, rfl⟩
  case h_2 a rest hhost =>
    cases a with
    | command cmd data => exact .inr (.inl ⟨cmd, data, rest, hhost, h⟩)
    | reset => cases h; exact .inr (.inr (.inl ⟨rest, hhost, rfl⟩))
    | resetInFlight cmd data => cases h; exact .inr (.inr (.inr ⟨cmd, data, rest, hhost, rfl⟩))

/-- Everything an accepted word can do: an effect of the command it decodes to, or BAD_COMMAND or refusal. -/
theorem accept_next_cases {cmd : CmdWord} {data : Word64} {s t : State} (h : accept cmd data s = .next t) :
    (∃ i, decode cmd data = .ok i ∧ Effect i s t) ∨
    (wellFormed cmd = false ∧ s.err = .none ∧ t = s.raise .badCommand) ∨
    (wellFormed cmd = false ∧ s.err ≠ .none ∧ t = s.refuse) := by
  unfold accept at h
  split at h
  case h_1 i hdec => exact .inl ⟨i, hdec, exec_effect h⟩
  case h_2 e hdec =>
    have hwf : wellFormed cmd = false :=
      Bool.eq_false_iff.mpr fun hwf => by
        obtain ⟨i, hi⟩ := (decode_ok_iff_wellFormed cmd data).mpr hwf
        rw [hdec] at hi; cases hi
    unfold malformed at h
    split at h <;> cases h
    · exact .inr (.inl ⟨hwf, ‹_›, rfl⟩)
    · exact .inr (.inr ⟨hwf, ‹_›, rfl⟩)

/-- Every command that gives a next state pulses rsp_valid. -/
theorem Effect.rspValid {i : Instr} {s t : State} (h : Effect i s t) : t.rspValid = true := by
  cases h <;> rfl

/-- Every accepted word that gives a next state pulses rsp_valid (spec/10_state.md R39). -/
theorem accept_rspValid {cmd : CmdWord} {data : Word64} {s t : State} (h : accept cmd data s = .next t) :
    t.rspValid = true := by
  rcases accept_next_cases h with ⟨i, _, heff⟩ | ⟨_, _, rfl⟩ | ⟨_, _, rfl⟩
  · exact heff.rspValid
  · rfl
  · rfl

/-- A reset with a command in flight leaves a reset state, whatever it leaves in BUF
(spec/70_reset_and_hazards.md R231). -/
theorem abandon_eq_hardReset (s : State) (cmd : CmdWord) (data : Word64) :
    ∃ u : State, s.abandon cmd data = u.hardReset := by
  unfold State.abandon
  split
  · exact ⟨_, rfl⟩
  · exact ⟨s, rfl⟩

/-- The step of the host's act reset. -/
theorem step_of_reset {s : State} {rest : List HostAct} (h : s.host = .reset :: rest) :
    step s = .next (State.hardReset { s with host := rest }) := by
  simp only [step, portStep, h, perform]

/-- With no act to come the step is the idle step. -/
theorem step_of_nil {s : State} (h : s.host = []) : step s = .next s.idle := by
  simp only [step, portStep, h]

/-- Settles O9. -/
theorem idleStepOnlyEndsTheResponsePulse : Obligations.IdleStepOnlyEndsTheResponsePulse := fun _ h => step_of_nil h

/-! ### The invariant of the step boundary (spec/10_state.md R43) -/

/-- RESP written in range keeps the invariant. -/
theorem State.Inv.writeResp {s : State} (h : s.Inv) {r : Resp}
    (hrefused : r.refused = true → r.status = s.err ∧ s.err ≠ .none) (hstatus : r.status ≠ .none → s.err ≠ .none)
    (htarget : r.target ≤ 8 * s.params.bufBytes + 32767) (hnbits : r.nbits ≤ 8 * s.params.bufBytes)
    (hgroups : 5 * r.groups ≤ 8 * s.params.bufBytes) :
    (s.writeResp r).Inv :=
  { h with refused := hrefused, status := hstatus, target_le := htarget, nbits_le := hnbits, groups_le := hgroups }

/-- A response that is 0 in every field keeps the invariant. -/
theorem State.Inv.writeResp_zero {s : State} (h : s.Inv) : (s.writeResp Resp.zero).Inv :=
  h.writeResp nofun (fun hs => absurd rfl hs) (Nat.zero_le _) (Nat.zero_le _) (Nat.zero_le _)

/-- The model's list of host acts plays no part in the invariant. -/
theorem State.Inv.withHost {s : State} (h : s.Inv) (rest : List HostAct) : State.Inv { s with host := rest } :=
  { h with }

theorem State.Inv.idle {s : State} (h : s.Inv) : s.idle.Inv := { h with }

/-- Raising an error keeps the invariant. -/
theorem State.Inv.raise {s : State} (h : s.Inv) {e : ErrCode} (he : e ≠ .none) : (s.raise e).Inv := by
  have herr : (s.raise e).err ≠ .none := by
    rw [State.raise_err]; split <;> assumption
  exact { h with refused := nofun, status := fun _ => herr, target_le := Nat.zero_le _, nbits_le := Nat.zero_le _,
                 groups_le := Nat.zero_le _ }

/-- Refusal keeps the invariant. -/
theorem State.Inv.refuse {s : State} (h : s.Inv) (he : s.err ≠ .none) : s.refuse.Inv :=
  h.writeResp (fun _ => ⟨rfl, he⟩) (fun _ => he) (Nat.zero_le _) (Nat.zero_le _) (Nat.zero_le _)

/-- A read that ends inside the stream keeps the invariant, with NBITS, GROUPS and TARGET as a read gives them. -/
theorem State.Inv.answered {s : State} (h : s.Inv) {r : Resp} (hpos : s.pos + r.nbits ≤ 8 * s.len)
    (hstatus : r.status = .none) (hrefused : r.refused = false) (hgroups : 5 * r.groups ≤ r.nbits)
    (htarget : r.target ≤ s.pos + r.nbits + 32767) : (s.answered (s.pos + r.nbits) r).Inv := by
  have hlen := h.len_le
  have hnbits : r.nbits ≤ 8 * s.params.bufBytes := by omega
  exact { h with pos_le := hpos
                 refused := fun hr => absurd (hrefused.symm.trans hr) nofun
                 status := fun hs => absurd hstatus hs
                 target_le := htarget.trans (by simp only [State.answered_params]; omega)
                 nbits_le := hnbits
                 groups_le := hgroups.trans hnbits }

/-- A new stream that fits in BUF keeps the invariant once RESP is 0. -/
theorem State.Inv.beginStream {s : State} (h : s.Inv) {n : Nat} (hn : n ≤ s.params.bufBytes) :
    ((s.beginStream n).writeResp Resp.zero).Inv :=
  { h with len_le := hn, pos_le := Nat.zero_le _, refused := nofun, status := fun hs => absurd rfl hs,
           target_le := Nat.zero_le _, nbits_le := Nat.zero_le _, groups_le := Nat.zero_le _ }

/-- A cell set below a bound leaves every listed cell below it. -/
theorem isSome_cellAt_setCell_lt {m : List (Nat × BitVec 8)} {n i a : Nat} {v : BitVec 8}
    (h : ∀ a, (cellAt m a).isSome = true → a < n) (hi : i < n) (ha : (cellAt (setCell m i v) a).isSome = true) :
    a < n := by
  rw [cellAt_setCell] at ha
  split at ha
  · subst a; exact hi
  · exact h a ha

/-- Writing a byte below BUF_BYTES keeps the invariant. -/
theorem State.Inv.writeByte {s : State} (h : s.Inv) {a : Nat} (b : BitVec 8) (ha : a < s.params.bufBytes) :
    (s.writeByte a b).Inv :=
  { h with
    buf_wf := writeByte_memory_wf s a b h.buf_wf
    buf_bound := fun _ hc => isSome_cellAt_setCell_lt h.buf_bound ha hc
    written_wf := setMark_rising _ _ h.written_wf
    written_known := fun c hc => by
      rw [State.writeByte_buf, cellAt_setCell]
      split
      · rfl
      · exact h.written_known c (((mem_setMark _ _ _).mp hc).resolve_left ‹_›) }

/-- Every effect of a command keeps the invariant. -/
theorem Effect.inv {i : Instr} {s t : State} (heff : Effect i s t) (h : s.Inv) : t.Inv := by
  cases heff with
  | refused he => exact h.refuse he
  | failed e he => exact h.raise he
  | answered r _ _ hp hs hr hg ht => exact h.answered hp hs hr hg ht
  | nop => exact h.writeResp_zero
  | chk => exact h.writeResp nofun (fun hs => absurd rfl hs) (Nat.zero_le _) (Nat.zero_le _) (Nat.zero_le _)
  | start len _ hl => exact h.beginStream hl
  | wrbuf addr byte _ ha => exact (h.writeByte byte ha).writeResp_zero

theorem accept_inv {cmd : CmdWord} {data : Word64} {s t : State} (hacc : accept cmd data s = .next t) (h : s.Inv) :
    t.Inv := by
  rcases accept_next_cases hacc with ⟨i, _, heff⟩ | ⟨_, _, rfl⟩ | ⟨_, he, rfl⟩
  · exact heff.inv h
  · exact h.raise nofun
  · exact h.refuse he

/-- A reset keeps the invariant of BUF, and with it the whole invariant. -/
theorem hardReset_inv {s : State} (hbytes : 1 ≤ s.params.bufBytes) (hwf : Memory.wf s.buf = true)
    (hbound : ∀ a, (cellAt s.buf a).isSome = true → a < s.params.bufBytes) : s.hardReset.Inv :=
  { resetOf_inv s.params hbytes with buf_wf := hwf, buf_bound := hbound, written_known := nofun }

/-- A reset with a command in flight keeps the invariant, whichever byte an abandoned WRBUF leaves. -/
theorem State.Inv.abandon {s : State} (h : s.Inv) (cmd : CmdWord) (data : Word64) : (s.abandon cmd data).Inv := by
  unfold State.abandon
  split
  case h_1 addr byte _ =>
    obtain ⟨heq, hbuf⟩ := abandonWrite_cases s addr.toNat byte
    have hparams : (s.abandonWrite addr.toNat byte).params = s.params := by rw [heq]
    refine hardReset_inv (hparams ▸ h.bufBytes_pos) (abandonWrite_memory_wf s _ _ h.buf_wf) fun a ha => ?_
    rw [hparams]
    rcases hbuf with e | ⟨_, hlt, e⟩ <;> rw [e] at ha
    · exact h.buf_bound a ha
    · exact isSome_cellAt_setCell_lt h.buf_bound hlt ha
  case h_2 => exact hardReset_inv h.bufBytes_pos h.buf_wf h.buf_bound

/-- Settles O14, by the host's act: each of the four that a step can perform keeps the invariant. -/
theorem everyStepKeepsTheBoundaryConditions : Obligations.EveryStepKeepsTheBoundaryConditions := by
  intro s t h hstep
  rcases step_next_cases hstep with ⟨_, rfl⟩ | ⟨cmd, data, rest, _, hacc⟩ | ⟨rest, _, rfl⟩ | ⟨cmd, data, rest, _, rfl⟩
  · exact h.idle
  · exact accept_inv hacc (h.withHost rest)
  · exact hardReset_inv h.bufBytes_pos h.buf_wf h.buf_bound
  · exact (h.withHost rest).abandon cmd data

end Sys2Proof.Machine
end

section
/-! The family of spec/10_state.md: errors and refusal, and what each command leaves unchanged. -/

namespace Sys2Proof.Machine

open Sys2Proof.Laws.EncodedWordIsWellFormed (opcodeOf)

/-! ### Refusal and errors (spec/60_exceptions.md R205, R207) -/

/-- exec of a command that does not run while ERR != 0 stands behind the ERR gate. -/
theorem exec_gated {i : Instr} (h : runsInError i = false) (s : State) : ∃ b, exec i s = gated s b := by
  cases i
  case start => cases h
  case wrbuf => cases h
  all_goals exact ⟨_, rfl⟩

/-- Settles O33: the ERR gate refuses. -/
theorem commandsAreRefusedWhileAnErrorIsLatched : Obligations.CommandsAreRefusedWhileAnErrorIsLatched := by
  intro i s hi herr
  obtain ⟨b, hb⟩ := exec_gated hi s
  rw [hb, gated_refuses b herr]
  rfl

/-- The state after a response of status `st`: ERR takes it only if it was 0, the other fields of RESP but REFUSED are 0,
and all else is as before. Both `raise` and `refuse` leave such a state. -/
def State.errorResponse (s : State) (st : ErrCode) (refused : Bool) : State :=
  { s with err := if s.err = .none then st else s.err, resp := { Resp.zero with status := st, refused := refused },
           rspValid := true }

theorem raise_eq_errorResponse (s : State) (e : ErrCode) : s.raise e = s.errorResponse e false := rfl

theorem refuse_eq_errorResponse {s : State} (h : s.err ≠ .none) : s.refuse = s.errorResponse s.err true := by
  rw [State.errorResponse, if_neg h]
  rfl

/-- Every effect of a command that responds with an error. -/
theorem Effect.eq_errorResponse {i : Instr} {s t : State} (heff : Effect i s t) (h : t.resp.status ≠ .none) :
    t = s.errorResponse t.resp.status t.resp.refused := by
  cases heff with
  | refused he => exact refuse_eq_errorResponse he
  | failed e => exact raise_eq_errorResponse s e
  | answered r _ _ _ hs => exact absurd hs h
  | nop => exact absurd rfl h
  | chk => exact absurd rfl h
  | start => exact absurd rfl h
  | wrbuf => exact absurd rfl h

/-- REFUSED marks the commands that an error keeps from running. -/
theorem Effect.refused_iff {i : Instr} {s t : State} (heff : Effect i s t) :
    t.resp.refused = true ↔ s.err ≠ .none ∧ runsInError i = false := by
  cases heff with
  | refused he hi => exact iff_of_true rfl ⟨he, hi⟩
  | failed e _ hi => exact iff_of_false nofun (by rcases hi with hi | hi <;> simp [hi])
  | answered r _ he _ _ hr => exact iff_of_false (by simp [hr]) (by simp [he])
  | nop _ he => exact iff_of_false nofun (by simp [he])
  | chk _ _ he => exact iff_of_false nofun (by simp [he])
  | start _ hi => subst hi; exact iff_of_false nofun nofun
  | wrbuf _ _ hi => subst hi; exact iff_of_false nofun nofun

/-- Settles O34: for a word that decodes, by the effects of its command; any other word raises or is refused. -/
theorem errorsArePrecise : Obligations.ErrorsArePrecise := by
  intro cmd data s t hacc
  rcases accept_next_cases hacc with ⟨i, hdec, heff⟩ | ⟨hwf, he, rfl⟩ | ⟨hwf, he, rfl⟩
  · refine ⟨?_, heff.eq_errorResponse⟩
    have hwf : wellFormed cmd = true := (decode_ok_iff_wellFormed cmd data).mp ⟨i, hdec⟩
    rw [heff.refused_iff, decode_opField hdec, ← runsInError_iff_opcodeOf]
    simp [hwf]
  · exact ⟨iff_of_false nofun fun h => h.1 he, fun _ => raise_eq_errorResponse s _⟩
  · exact ⟨iff_of_true rfl ⟨he, by simp [hwf]⟩, fun _ => refuse_eq_errorResponse he⟩

/-! ### What clears ERR (spec/60_exceptions.md R206, R208) -/

/-- The word 0x9000 with a length of at most BUF_BYTES begins a stream, whatever ERR is (spec/42_control.md R161). -/
theorem accept_start (s : State) {data : Word64} (h : data.toNat ≤ s.params.bufBytes) :
    accept 0x9000#16 data s = .next ((s.beginStream data.toNat).writeResp Resp.zero) := by
  rw [accept_of_decode (i := .start data) s rfl]
  exact congrArg (conclude s) (if_neg (Nat.not_lt.mpr h))

/-- A command that did not begin a stream leaves a latched error. -/
theorem Effect.err_of_latched {i : Instr} {s t : State} (heff : Effect i s t) (he : s.err ≠ .none)
    (hi : ∀ len, i = .start len → ¬ len.toNat ≤ s.params.bufBytes) : t.err = s.err := by
  cases heff with
  | refused => rfl
  | failed => exact if_neg he
  | answered => rfl
  | nop => rfl
  | chk => rfl
  | start len hlen hl => exact absurd hl (hi len hlen)
  | wrbuf => rfl

/-- An accepted word that is not a START in range leaves a latched error. -/
theorem accept_err_of_latched {cmd : CmdWord} {data : Word64} {s t : State} (hacc : accept cmd data s = .next t)
    (he : s.err ≠ .none) (hno : ¬ (cmd = 0x9000#16 ∧ data.toNat ≤ s.params.bufBytes)) : t.err = s.err := by
  rcases accept_next_cases hacc with ⟨i, hdec, heff⟩ | ⟨_, he', _⟩ | ⟨_, _, rfl⟩
  · refine heff.err_of_latched he fun len hi hl => hno ?_
    subst hi
    obtain ⟨hcmd, rfl⟩ := decode_start_inv hdec
    exact ⟨hcmd, hl⟩
  · exact absurd he' he
  · rfl

/-- Settles O37, by the host's act: the reset acts and a START in range leave ERR 0, and anything else leaves it. -/
theorem onlyStartOrResetClearsErr : Obligations.OnlyStartOrResetClearsErr := by
  intro s t hstep he
  rcases step_next_cases hstep with
    ⟨hhost, rfl⟩ | ⟨cmd, data, rest, hhost, hacc⟩ | ⟨rest, hhost, rfl⟩ | ⟨cmd, data, rest, hhost, rfl⟩
  · exact ⟨iff_of_false he (by simp [hhost]), fun _ => rfl⟩
  · by_cases hstart : cmd = 0x9000#16 ∧ data.toNat ≤ s.params.bufBytes
    · obtain ⟨rfl, hl⟩ := hstart
      cases (accept_start { s with host := rest } hl).symm.trans hacc
      exact ⟨iff_of_true rfl (.inl ⟨data, rest, hhost, hl⟩), fun hne => absurd rfl hne⟩
    · have hkept : t.err = s.err := accept_err_of_latched (s := { s with host := rest }) hacc he hstart
      exact ⟨iff_of_false (hkept ▸ he) (by simpa [hhost] using hstart), fun _ => hkept⟩
  · exact ⟨iff_of_true rfl (.inr (.inl ⟨rest, hhost⟩)), fun hne => absurd rfl hne⟩
  · obtain ⟨u, hu⟩ := abandon_eq_hardReset { s with host := rest } cmd data
    rw [hu]
    exact ⟨iff_of_true rfl (.inr (.inr ⟨cmd, data, rest, hhost⟩)), fun hne => absurd rfl hne⟩

/-! ### POS and NBITS (spec/10_state.md R23, R34) -/

/-- POS moves by NBITS, but at a START. -/
theorem Effect.pos_eq {i : Instr} {s t : State} (heff : Effect i s t) (hi : ∀ len, i ≠ .start len) :
    t.pos = s.pos + t.resp.nbits := by
  cases heff with
  | start len hlen => exact absurd hlen (hi len)
  | _ => rfl

/-- NBITS is 0 where nothing was read. -/
theorem Effect.nbits_eq_zero {i : Instr} {s t : State} (heff : Effect i s t)
    (h : t.resp.status ≠ .none ∨ isExtraction i = false) : t.resp.nbits = 0 := by
  cases heff with
  | answered r hi _ _ hs => rcases h with h | h <;> simp_all
  | _ => rfl

/-- Settles O41. -/
theorem posAdvancesByNbitsBetweenStarts : Obligations.PosAdvancesByNbitsBetweenStarts := fun _ _ _ h =>
  ⟨(exec_effect h).pos_eq, (exec_effect h).nbits_eq_zero⟩

/-! ### What a command leaves unchanged -/

/-- A command that responds with STATUS 0 leaves ERR, but for START. -/
theorem Effect.err_of_success {i : Instr} {s t : State} (heff : Effect i s t) (hi : ∀ len, i ≠ .start len)
    (h : t.resp.status = .none) : t.err = s.err := by
  cases heff with
  | failed e he => exact absurd h he
  | start len hlen => exact absurd hlen (hi len)
  | _ => rfl

/-- Only a WRBUF changes what a byte of BUF reads as, and only the byte at its address. -/
theorem Effect.readByte {i : Instr} {s t : State} (heff : Effect i s t) {a : Nat}
    (hi : ∀ addr byte, i = .wrbuf addr byte → a ≠ wrbufAddr addr) : t.readByte a = s.readByte a := by
  cases heff with
  | wrbuf addr byte haddr => exact readByte_writeByte_ne s byte (hi addr byte haddr)
  | _ => rfl

/-- Settles O42: an extraction command is refused, fails, or answers. -/
theorem extractionFrame : Obligations.ExtractionFrame := by
  intro i s t hi hexec
  have heff := exec_effect hexec
  refine ⟨?_, fun a => heff.readByte ?_, heff.err_of_success ?_, fun hs => ?_⟩
  · cases heff with
    | nop hnop => subst hnop; cases hi
    | chk _ hchk => subst hchk; cases hi
    | start _ hstart => subst hstart; cases hi
    | wrbuf _ _ hwrbuf => subst hwrbuf; cases hi
    | _ => rfl
  · rintro addr byte rfl; cases hi
  · rintro len rfl; cases hi
  · rw [heff.eq_errorResponse hs]; rfl

/-- Settles O43: NOP and CHK are refused, fail, or write RESP alone. -/
theorem nopAndChkFrame : Obligations.NopAndChkFrame := by
  intro i s t hi hexec
  have heff := exec_effect hexec
  have hother : isExtraction i = false ∧ (∀ len, i ≠ .start len) ∧ ∀ addr byte, i ≠ .wrbuf addr byte := by
    rcases hi with rfl | ⟨target, rfl⟩ <;> exact ⟨rfl, nofun, nofun⟩
  obtain ⟨hread, hstart, hwrbuf⟩ := hother
  refine ⟨?_, fun a => heff.readByte fun addr byte h => absurd h (hwrbuf addr byte), heff.err_of_success hstart⟩
  cases heff with
  | answered r hi => exact absurd (hread.symm.trans hi) nofun
  | start len h => exact absurd h (hstart len)
  | wrbuf addr byte h => exact absurd h (hwrbuf addr byte)
  | _ => rfl

/-- Settles O44: START fails or begins a stream. -/
theorem startFrame : Obligations.StartFrame := by
  intro len s t hexec
  have heff := exec_effect hexec
  refine ⟨?_, fun a => heff.readByte nofun⟩
  cases heff with
  | answered r hi => cases hi
  | wrbuf addr byte h => cases h
  | _ => rfl

/-- Settles O45: WRBUF fails or writes the byte. -/
theorem wrbufFrame : Obligations.WrbufFrame := by
  intro addr byte s t hexec
  have heff := exec_effect hexec
  refine ⟨?_, fun a ha => heff.readByte ?_, heff.err_of_success nofun, fun hs => ?_⟩
  · cases heff with
    | answered r hi => cases hi
    | start len h => cases h
    | _ => rfl
  · rintro _ _ ⟨⟩; exact ha
  · rw [heff.eq_errorResponse hs]; exact ⟨rfl, rfl⟩

end Sys2Proof.Machine
end

section
/-! The family of spec/10_state.md: the response of each command, field by field. -/

namespace Sys2Proof.Machine

/-! ### The response of each command that succeeds (spec/10_state.md R25-R36) -/

/-- The responses with STATUS 0 that a command can give, each by its record of Flags.lean. -/
inductive Responds : Instr → Resp → Prop
  | nop : Responds .nop Resp.zero
  | read (w : BitVec 6) (v : BitVec 64) : Responds (.read w) (respField v (readWidth w))
  | hdr (h : BitVec 64) : Responds .hdr (respHdr h)
  | lit (l : LitResult) : Responds .lit (respLit l)
  | ltype (b : BitVec 64) : Responds .ltype (respLtype b)
  | count (c : BitVec 64) : Responds .count (respField c 11)
  | tlen (total : BitVec 64) (p : Nat) : Responds .tlen (respTlen total p)
  | pktLiteral (ver typ : BitVec 3) (l : LitResult) (p : Nat) : Responds .pkt (respPktLiteral ver typ l p)
  | pktCount (ver typ : BitVec 3) (c : BitVec 64) (p p0 : Nat) : Responds .pkt (respPktCount ver typ c p p0)
  | pktLength (ver typ : BitVec 3) (total : BitVec 64) (p p0 : Nat) : Responds .pkt (respPktLength ver typ total p p0)
  | chk (target : BitVec 64) (more : Bool) : Responds (.chk target) (respChk more)
  | start (len : BitVec 64) : Responds (.start len) Resp.zero
  | wrbuf (addr : BitVec 56) (byte : BitVec 8) : Responds (.wrbuf addr byte) Resp.zero

/-- A command of one read that succeeded responds with its record. -/
theorem resp_of_gated_readField {s t : State} {n : Nat} {f : BitVec 64 → Nat → Resp}
    (h : gated s (s.readField n f) = .next t) (hs : t.resp.status = .none) : ∃ v, t.resp = f v (s.pos + n) := by
  obtain ⟨_, _, rfl⟩ := gated_readField_inv h hs
  exact ⟨_, rfl⟩

/-- A LIT that succeeded responds with what `LitLoop` returned. -/
theorem resp_of_execLit {s t : State} (h : execLit s = .next t) (hs : t.resp.status = .none) :
    ∃ l, t.resp = respLit l := by
  rcases gated_next h with ⟨he, rfl⟩ | ⟨_, hb | ⟨e, hb, rfl⟩⟩
  · exact absurd hs he
  · rcases litLoop_cases s s.pos with ⟨g, _, e⟩ | e | ⟨a, _, _, e⟩ <;> rw [e] at hb <;> cases hb
    exact ⟨_, rfl⟩
  · have hbody := execLit_body s
    rw [hb] at hbody
    cases hbody
    cases hs

/-- A PKT that succeeded responds with the record of a literal, of a count or of a length. -/
theorem responds_of_execPkt {s t : State} (h : execPkt s = .next t) (hs : t.resp.status = .none) :
    Responds .pkt t.resp := by
  obtain ⟨_, hb⟩ := execPkt_inv h hs
  rcases pktBody_cases s with ⟨g, _, _, _, e⟩ | ⟨_, _, _, e⟩ | ⟨_, _, _, e⟩ | e | ⟨a, _, _, e⟩ <;> rw [e] at hb <;>
    cases hb
  · exact .pktLiteral ..
  · exact .pktCount ..
  · exact .pktLength ..

/-- A command that does not read the stream and succeeded responds with its record. -/
theorem Effect.responds {i : Instr} {s t : State} (heff : Effect i s t) (hi : isExtraction i = false)
    (hs : t.resp.status = .none) : Responds i t.resp := by
  cases heff with
  | refused he => exact absurd hs he
  | failed e he => exact absurd hs he
  | answered r hx => exact absurd (hi.symm.trans hx) nofun
  | nop h => subst h; exact .nop
  | chk target h _ more => subst h; exact .chk target more
  | start len h => subst h; exact .start len
  | wrbuf addr byte h => subst h; exact .wrbuf addr byte

/-- Every response with STATUS 0 is one of the command's records. -/
theorem exec_responds {i : Instr} {s t : State} (h : exec i s = .next t) (hs : t.resp.status = .none) :
    Responds i t.resp := by
  cases i with
  | read w => obtain ⟨v, hv⟩ := resp_of_gated_readField h hs; rw [hv]; exact .read w v
  | hdr => obtain ⟨v, hv⟩ := resp_of_gated_readField h hs; rw [hv]; exact .hdr v
  | lit => obtain ⟨l, hl⟩ := resp_of_execLit h hs; rw [hl]; exact .lit l
  | ltype => obtain ⟨v, hv⟩ := resp_of_gated_readField h hs; rw [hv]; exact .ltype v
  | count => obtain ⟨v, hv⟩ := resp_of_gated_readField h hs; rw [hv]; exact .count v
  | tlen => obtain ⟨v, hv⟩ := resp_of_gated_readField h hs; rw [hv]; exact .tlen v _
  | pkt => exact responds_of_execPkt h hs
  | _ => exact (exec_effect h).responds rfl hs

/-- Settles O46: an error response is 0 but for STATUS and REFUSED, and any other is one of the command's records. -/
theorem unnamedResponseFieldsAreZero : Obligations.UnnamedResponseFieldsAreZero := by
  intro i s t hexec
  by_cases hs : t.resp.status = .none
  · have hresp := exec_responds hexec hs
    generalize t.resp = r at hresp
    cases hresp <;> simp [Resp.zero, respField, respHdr, respLit, respLtype, respTlen, respPktLiteral, respPktCount,
      respPktLength, respChk]
  · rw [(exec_effect hexec).eq_errorResponse hs]
    simp [State.errorResponse, Resp.zero]

end Sys2Proof.Machine
end

section
/-! The family of spec/10_state.md: the reads at the stream's end, as after a reset, and what of BUF a command can see. -/

namespace Sys2Proof.Machine

/-! ### The state after the reset act (spec/10_state.md R42) -/

/-- `LitLoop` with no room for one group (spec/41_fields.md R121). -/
theorem litLoop_short (s : State) {p : Nat} (h : 8 * s.len < p + 5) : s.litLoop p = .error (.error .outOfBits) :=
  litTurns_stop s _ _ _ _ _ _ (bits_short s p 5 h)

/-- PKT's body with no room for VERSION (spec/41_fields.md R127). -/
theorem pktBody_short (s : State) (h : 8 * s.len < s.pos + 3) : s.pktBody = .error (.error .outOfBits) := by
  unfold State.pktBody
  rw [bits_short s s.pos 3 h]
  rfl

/-- A command of the stream at or past its end raises OUT_OF_BITS, whatever BUF holds. -/
theorem exec_extraction_at_end {i : Instr} (hi : isExtraction i = true) {s : State} (he : s.err = .none)
    (hend : 8 * s.len ≤ s.pos) : exec i s = .next (s.raise .outOfBits) := by
  have field (n : Nat) (hn : 0 < n) (f : BitVec 64 → Nat → Resp) :
      gated s (s.readField n f) = .next (s.raise .outOfBits) := by
    rw [gated_ready _ he, readField_short s n f (by omega)]; rfl
  cases i with
  | read w => exact field _ (Nat.succ_pos _) _
  | hdr => exact field 6 (by decide) _
  | ltype => exact field 1 (by decide) _
  | count => exact field 11 (by decide) _
  | tlen => exact field 15 (by decide) _
  | lit =>
    refine (gated_ready _ he).trans ?_
    rw [litLoop_short s (by omega)]; rfl
  | pkt =>
    change gated s s.pktBody = _
    rw [gated_ready _ he, pktBody_short s (by omega)]; rfl
  | nop => cases hi
  | chk => cases hi
  | start => cases hi
  | wrbuf => cases hi

/-- Settles O10: the reset writes the reset values, clears the marks of BUF, and leaves a stream of no bits. -/
theorem resetActSetsTheResetValues : Obligations.ResetActSetsTheResetValues := by
  intro s rest hhost
  exact ⟨_, step_of_reset hhost, rfl, rfl, rfl, rfl, rfl, rfl, rfl, rfl, rfl, rfl, fun a => readByte_unknown _ a rfl,
    fun i hi => exec_extraction_at_end hi rfl (Nat.le_refl _)⟩

/-! ### What the host can tell apart (spec/20_memory.md R51, R55) -/

section
variable {s t : State} (h : s.SameStream t)
include h

theorem State.SameStream.params_eq : t.params = s.params := h.2.1
theorem State.SameStream.len_eq : t.len = s.len := h.2.2.1
theorem State.SameStream.pos_eq : t.pos = s.pos := h.2.2.2.1
theorem State.SameStream.err_eq : t.err = s.err := h.2.2.2.2.1

theorem State.SameStream.bits (p n : Nat) : t.bits p n = s.bits p n := bits_congr h.len_eq h.1 p n

theorem State.SameStream.litLoop (p : Nat) : t.litLoop p = s.litLoop p := litLoop_congr h.len_eq h.1 p

/-- The same answer in two states of one stream is alike to the host. -/
theorem State.SameStream.alike_answered (q : Nat) (r : Resp) :
    Out.Alike (.next (s.answered q r)) (.next (t.answered q r)) := ⟨h.len_eq, rfl, h.err_eq, rfl, rfl⟩

theorem State.SameStream.alike_writeResp (r : Resp) : Out.Alike (.next (s.writeResp r)) (.next (t.writeResp r)) :=
  ⟨h.len_eq, h.pos_eq, h.err_eq, rfl, rfl⟩

theorem State.SameStream.alike_raise (e : ErrCode) : Out.Alike (.next (s.raise e)) (.next (t.raise e)) :=
  ⟨h.len_eq, h.pos_eq, by simp only [State.raise_err, h.err_eq], rfl, rfl⟩

/-- A command that ends alike when it runs ends alike behind the ERR gate. -/
theorem State.SameStream.alike_gated {b c : Except Stop State} (hbc : Out.Alike (conclude s b) (conclude t c)) :
    Out.Alike (gated s b) (gated t c) := by
  unfold gated
  rw [h.err_eq]
  split
  · exact hbc
  · exact ⟨h.len_eq, h.pos_eq, h.err_eq, by simp only [State.refuse_resp, h.err_eq], rfl⟩

/-- Bodies that begin with one read end alike if they do so after every value that the read can return. -/
theorem State.SameStream.alike_bind {α : Type} (x : Except Stop α) {f g : α → Except Stop State}
    (hfg : ∀ a, Out.Alike (conclude s (f a)) (conclude t (g a))) :
    Out.Alike (conclude s (x >>= f)) (conclude t (x >>= g)) := by
  match x with
  | .ok a => exact hfg a
  | .error (.error e) => exact h.alike_raise e
  | .error (.uninitRead a) => rfl

theorem State.SameStream.alike_readField (n : Nat) (f : BitVec 64 → Nat → Resp) :
    Out.Alike (gated s (s.readField n f)) (gated t (t.readField n f)) := by
  refine h.alike_gated ?_
  unfold State.readField
  rw [h.bits, h.pos_eq]
  exact h.alike_bind _ fun _ => h.alike_answered _ _

theorem State.SameStream.alike_lit : Out.Alike (execLit s) (execLit t) := by
  refine h.alike_gated ?_
  rw [h.litLoop, h.pos_eq]
  exact h.alike_bind _ fun _ => h.alike_answered _ _

theorem State.SameStream.alike_pktLiteral (ver typ : BitVec 3) (p : Nat) :
    Out.Alike (conclude s (s.pktLiteral ver typ p)) (conclude t (t.pktLiteral ver typ p)) := by
  unfold State.pktLiteral
  rw [h.litLoop, h.pos_eq]
  exact h.alike_bind _ fun _ => h.alike_answered _ _

theorem State.SameStream.alike_pktOperator (ver typ : BitVec 3) (p : Nat) :
    Out.Alike (conclude s (s.pktOperator ver typ p)) (conclude t (t.pktOperator ver typ p)) := by
  unfold State.pktOperator
  rw [h.bits, h.pos_eq]
  refine h.alike_bind _ fun ⟨lt, q⟩ => ?_
  simp only [h.bits]
  split
  · exact h.alike_bind _ fun _ => h.alike_answered _ _
  · exact h.alike_bind _ fun _ => h.alike_answered _ _

theorem State.SameStream.alike_pkt : Out.Alike (execPkt s) (execPkt t) := by
  rw [execPkt_eq, execPkt_eq]
  refine h.alike_gated ?_
  unfold State.pktBody
  rw [h.bits, h.pos_eq]
  refine h.alike_bind _ fun ⟨v, p⟩ => ?_
  simp only [h.bits]
  refine h.alike_bind _ fun ⟨ty, q⟩ => ?_
  dsimp only
  split
  · exact h.alike_pktLiteral _ _ _
  · exact h.alike_pktOperator _ _ _

theorem State.SameStream.alike_chk (target : BitVec 64) : Out.Alike (execChk target s) (execChk target t) := by
  refine h.alike_gated ?_
  rw [h.pos_eq]
  split
  · exact h.alike_raise _
  · exact h.alike_writeResp _

theorem State.SameStream.alike_start (len : BitVec 64) : Out.Alike (execStart len s) (execStart len t) := by
  unfold execStart
  rw [h.params_eq]
  split
  · exact h.alike_raise _
  · exact ⟨rfl, rfl, rfl, rfl, rfl⟩

theorem State.SameStream.alike_wrbuf (addr : BitVec 56) (byte : BitVec 8) :
    Out.Alike (execWrbuf addr byte s) (execWrbuf addr byte t) := by
  unfold execWrbuf
  rw [h.params_eq]
  split
  · exact h.alike_raise _
  · exact ⟨h.len_eq, h.pos_eq, h.err_eq, rfl, rfl⟩

end

/-- Settles O21: a body sees of BUF only the reads below LEN, on which the two states agree. -/
theorem bytesAtOrAboveLenNeverMatter : Obligations.BytesAtOrAboveLenNeverMatter := by
  intro i s t h
  cases i with
  | nop => exact h.alike_gated (h.alike_writeResp _)
  | read w => exact h.alike_readField _ _
  | hdr => exact h.alike_readField _ _
  | lit => exact h.alike_lit
  | ltype => exact h.alike_readField _ _
  | count => exact h.alike_readField _ _
  | tlen => exact h.alike_readField _ _
  | pkt => exact h.alike_pkt
  | chk target => exact h.alike_chk target
  | start len => exact h.alike_start len
  | wrbuf addr byte => exact h.alike_wrbuf addr byte

end Sys2Proof.Machine
end

section
/-! The family of spec/10_state.md: the response pulse, a command in flight and reset at the pins (R38, R39). -/

namespace Sys2Proof.Machine

theorem endCommand_next {o : Out} {c : Clocked} (h : endCommand o = .next c) :
    ∃ t, o = .next t ∧ c = { core := t, inFlight := none } := by
  cases o with
  | next t => cases h; exact ⟨t, rfl, rfl⟩
  | fault => cases h
  | refused => cases h

/-- The edge that ends a command leaves the state that accepting it gave, with nothing in flight. -/
theorem clockEdge_ends_inv {latency : Nat} {c c' : Clocked} {p : Pins} {f : InFlight} (hc : c.inFlight = some f)
    (hf : f.left ≤ 1) (hr : p.rst = false) (h : clockEdge latency p c = .next c') :
    ∃ t, accept f.cmd f.data c.core = .next t ∧ c' = { core := t, inFlight := none } := by
  obtain ⟨s, _⟩ := c
  subst hc
  rw [clockEdge_ends latency s hr hf] at h
  exact endCommand_next h

/-- With nothing in flight, an edge ends the response pulse and accepts a command if one is offered. -/
theorem clockEdge_of_none (latency : Nat) {p : Pins} (s : State) (hr : p.rst = false) :
    ∃ f, f.isNone = !p.cmdValid ∧
      clockEdge latency p { core := s, inFlight := none } = .next { core := s.idle, inFlight := f } := by
  refine ⟨if p.cmdValid then some ⟨p.cmdWord, p.cmdData, latency⟩ else none, ?_, by simp [clockEdge, hr]⟩
  cases p.cmdValid <;> rfl

/-- Settles O53: the command's end pulses rsp_valid, and the next edge begins from a state with nothing in flight. -/
theorem responsePulseLastsOneCycle : Obligations.ResponsePulseLastsOneCycle := by
  intro latency c c1 p q f hc hf hp hq hedge
  obtain ⟨t, hacc, rfl⟩ := clockEdge_ends_inv hc hf hp hedge
  obtain ⟨g, hg, hnext⟩ := clockEdge_of_none latency t hq
  exact ⟨accept_rspValid hacc, rfl, _, hnext, rfl, hg, rfl⟩

/-- Settles O52: the edge only counts down. -/
theorem outputsHoldWhileACommandIsInFlight : Obligations.OutputsHoldWhileACommandIsInFlight := by
  rintro latency ⟨s, _⟩ p f rst rfl hp hf
  exact ⟨by simp [Clocked.cmdReady], _, clockEdge_waits latency s hp hf, rfl, rfl, rfl⟩

/-- Settles O54: with or without a command in flight, what `resetEdge` leaves is a reset state. -/
theorem clockedResetIsTheResetAct : Obligations.ClockedResetIsTheResetAct := by
  rintro latency ⟨s, fl⟩ p hp
  have hedge : clockEdge latency p ⟨s, fl⟩ = .next (resetEdge ⟨s, fl⟩) := if_pos hp
  cases fl with
  | none =>
    exact ⟨_, hedge, rfl, rfl, rfl, rfl, rfl, rfl, rfl, rfl, rfl, fun _ => ⟨rfl, rfl⟩, nofun⟩
  | some f =>
    obtain ⟨u, hu⟩ := abandon_eq_hardReset s f.cmd f.data
    have hreset : resetEdge ⟨s, some f⟩ = ⟨u.hardReset, none⟩ := congrArg (Clocked.mk · none) hu
    rw [hreset] at hedge
    refine ⟨_, hedge, rfl, rfl, rfl, rfl, rfl, rfl, rfl, rfl, rfl, nofun, ?_⟩
    rintro _ ⟨⟩
    exact congrArg Host.Outcome.next hu.symm

end Sys2Proof.Machine
end

section
/-! The family of spec/20_memory.md: `Bits` bit by bit, its barrel-shifter and chunked forms, and reads one after another. -/

namespace Sys2Proof.Machine

/-! ### The value of `Bits`, bit by bit (spec/20_memory.md R55) -/

/-- A field of at most 64 bits is kept whole by the 64-bit value path. -/
theorem toNat_ofNat_fieldNat (s : State) (p : Nat) {n : Nat} (h : n ≤ 64) :
    (BitVec.ofNat 64 (s.fieldNat p n)).toNat = s.fieldNat p n := by
  have hpow : 2 ^ n ≤ 2 ^ 64 := Nat.pow_le_pow_right (by decide) h
  rw [BitVec.toNat_ofNat, Nat.mod_eq_of_lt (Nat.lt_of_lt_of_le (fieldNat_lt s p n) hpow)]

/-- The field's bits are the stream's, the first the most significant. -/
theorem getLsbD_ofNat_fieldNat (s : State) (p : Nat) {n i : Nat} (hn : n ≤ 64) (hi : i < n) :
    (BitVec.ofNat 64 (s.fieldNat p n)).getLsbD i = decide (s.bitAt (p + (n - 1 - i)) = 1) := by
  have hbit := fieldNat_testBit s p n (n - 1 - i) (by omega)
  rw [show n - 1 - (n - 1 - i) = i by omega] at hbit
  rw [BitVec.getLsbD_ofNat, hbit, decide_eq_true (show i < 64 by omega), Bool.true_and]

/-- Above a field the value is zero. -/
theorem getLsbD_ofNat_fieldNat_of_le (s : State) (p : Nat) {n i : Nat} (hi : n ≤ i) :
    (BitVec.ofNat 64 (s.fieldNat p n)).getLsbD i = false := by
  have hpow : 2 ^ n ≤ 2 ^ i := Nat.pow_le_pow_right (by decide) hi
  rw [BitVec.getLsbD_ofNat, Nat.testBit_lt_two_pow (Nat.lt_of_lt_of_le (fieldNat_lt s p n) hpow), Bool.and_false]

/-- Settles O16. -/
theorem bitsReadsTheFieldMostSignificantFirst : Obligations.BitsReadsTheFieldMostSignificantFirst := by
  intro s p n _ hn
  refine ⟨bits_short s p n, fun hr => ⟨_, bits_readable s p n hr, toNat_ofNat_fieldNat s p hn, fun i hi => ?_,
    fun i hi => getLsbD_ofNat_fieldNat_of_le s p hi⟩⟩
  rw [getLsbD_ofNat_fieldNat s p hn (by omega), show n - 1 - (n - 1 - i) = i by omega, decide_eq_true_eq]

/-! ### The barrel-shifter form (spec/20_memory.md R57) -/

/-- The window holds its nine bytes in stream order: `m` bits after its first bit stands bit `7 - (m mod 8)` of byte
`m div 8`. -/
theorem window_getLsbD (s : State) (fill : Nat → Byte) (q : Nat) {m : Nat} (hm : m < 72) :
    (s.window fill q).getLsbD (71 - m) = (s.windowByte fill (q + m / 8)).getLsbD (7 - m % 8) := by
  obtain ⟨a, ha⟩ : ∃ a, m / 8 = a := ⟨_, rfl⟩
  have ha9 : a < 9 := by omega
  rw [ha, State.window]
  interval_cases a <;> simp (disch := omega) only [BitVec.getLsbD_append, if_pos, if_neg] <;> congr 1 <;> omega

/-- A byte of the window below LEN shows the stream's bits. -/
theorem windowByte_getLsbD (s : State) (fill : Nat → Byte) {k : Nat} (h : k < 8 * s.len) :
    (s.windowByte fill (k / 8)).getLsbD (7 - k % 8) = decide (s.bitAt k = 1) := by
  rw [State.windowByte, if_pos (by omega), State.bitAt, ← BitVec.testBit_toNat, Nat.testBit_eq_decide_div_mod_eq]

/-- Where the window from byte `q` covers a bit of the stream, it shows it. -/
theorem window_getLsbD_of_lt_len (s : State) (fill : Nat → Byte) {q m : Nat} (hm : m < 72)
    (h : 8 * q + m < 8 * s.len) :
    (s.window fill q).getLsbD (71 - m) = decide (s.bitAt (8 * q + m) = 1) := by
  rw [← windowByte_getLsbD s fill h, window_getLsbD s fill q hm, show (8 * q + m) / 8 = q + m / 8 by omega,
    show (8 * q + m) % 8 = m % 8 by omega]

/-- The shift brings the field's last bit to bit 0, and the mask clears the bits from `n` on. -/
theorem barrelValue_getLsbD (s : State) (fill : Nat → Byte) (p n : Nat) {i : Nat} (hi : i < 64) :
    (s.barrelValue fill p n).getLsbD i =
      (decide (i < n) && (s.window fill (p / 8)).getLsbD (72 - p % 8 - n + i)) := by
  rw [State.barrelValue, BitVec.getLsbD_setWidth, BitVec.getLsbD_and, BitVec.getLsbD_ushiftRight, BitVec.getLsbD_ofNat,
    Nat.testBit_two_pow_sub_one, decide_eq_true hi, decide_eq_true (show i < 72 by omega), Bool.true_and, Bool.true_and,
    Bool.and_comm]

/-- Settles O17: every selected bit of the window is a bit of the stream below `8*LEN`, so no filler is among them. -/
theorem barrelShifterFormEqualsBits : Obligations.BarrelShifterFormEqualsBits := by
  intro s fill p n v q _ hn h
  obtain ⟨⟨hlen, _⟩, rfl, _⟩ := bits_ok_inv s h
  refine BitVec.eq_of_getLsbD_eq fun i hi => ?_
  rw [barrelValue_getLsbD s fill p n hi]
  by_cases hin : i < n
  · have hbit := window_getLsbD_of_lt_len s fill (q := p / 8) (m := p % 8 + (n - 1 - i)) (by omega) (by omega)
    rw [show 71 - (p % 8 + (n - 1 - i)) = 72 - p % 8 - n + i by omega,
      show 8 * (p / 8) + (p % 8 + (n - 1 - i)) = p + (n - 1 - i) by omega] at hbit
    rw [getLsbD_ofNat_fieldNat s p hn hin, hbit, decide_eq_true hin, Bool.true_and]
  · rw [getLsbD_ofNat_fieldNat_of_le s p (by omega), decide_eq_false hin, Bool.false_and]

/-! ### The chunked form (spec/20_memory.md R58) -/

/-- Bits that lie in one byte are a chunk of it. -/
theorem fieldNat_in_byte (s : State) (k t : Nat) (h : k % 8 + t ≤ 8) :
    s.fieldNat k t = ((cellAt s.buf (k / 8)).getD 0).toNat / 2 ^ (8 - k % 8 - t) % 2 ^ t := by
  induction t with
  | zero => simp [State.fieldNat, Nat.mod_one]
  | succ t ih =>
    rw [State.fieldNat, ih (by omega), State.bitAt, show (k + t) / 8 = k / 8 by omega,
      show 7 - (k + t) % 8 = 8 - k % 8 - (t + 1) by omega, show 8 - k % 8 - t = 8 - k % 8 - (t + 1) + 1 by omega,
      Nat.pow_succ, ← Nat.div_div_eq_div_mul, Nat.pow_succ', Nat.mod_mul]
    omega

/-- The loop of `Bits` over bits of one known byte shifts in a chunk of it. -/
theorem bitsLoop_in_byte (s : State) {k t : Nat} (v : BitVec 64) (h : k % 8 + t ≤ 8) (hk : s.known (k / 8) = true) :
    s.bitsLoop t k v = .ok ((v <<< t) |||
      (((cellAt s.buf (k / 8)).getD 0).extractLsb' (8 - k % 8 - t) t).setWidth 64) := by
  have hw : s.Written k t := fun j hj => by rwa [show (k + j) / 8 = k / 8 by omega]
  have hlt : s.fieldNat k t < 2 ^ 64 :=
    Nat.lt_of_lt_of_le (fieldNat_lt s k t) (Nat.pow_le_pow_right (by decide) (by omega))
  have hchunk : ((((cellAt s.buf (k / 8)).getD 0).extractLsb' (8 - k % 8 - t) t).setWidth 64).toNat
      = s.fieldNat k t := by
    rw [BitVec.toNat_setWidth, BitVec.extractLsb'_toNat, Nat.shiftRight_eq_div_pow, ← fieldNat_in_byte s k t h,
      Nat.mod_eq_of_lt hlt]
  rw [bitsLoop_written s t k v hw]
  refine congrArg Except.ok (BitVec.eq_of_toNat_eq ?_)
  rw [toNat_shiftLeft_or _ _ _ (by rw [hchunk]; exact fieldNat_lt s k t), hchunk, BitVec.toNat_ofNat]

/-- The chunked steps give what the loop of `Bits` gives, and end after the field. -/
theorem chunkSteps_eq_bitsLoop (s : State) (fuel : Nat) (v : BitVec 64) (k left : Nat) (h : left ≤ fuel) :
    s.chunkSteps fuel v k left = (s.bitsLoop left k v).bind fun w => .ok (w, k + left) := by
  induction fuel generalizing v k left with
  | zero =>
    obtain rfl : left = 0 := by omega
    rfl
  | succ fuel ih =>
    rw [State.chunkSteps]
    split
    · subst left; rfl
    cases hk : s.known (k / 8) with
    | false =>
      rw [readByte_unknown s _ hk, bitsLoop_unwritten s left k 0 v (by omega) (fun j hj => absurd hj (by omega)) hk]
      rfl
    | true =>
      rw [readByte_known s _ hk]
      change s.chunkSteps fuel _ (k + min (8 - k % 8) left) (left - min (8 - k % 8) left) = _
      generalize htake : min (8 - k % 8) left = take
      have hsplit : s.bitsLoop left k v = s.bitsLoop (take + (left - take)) k v := by congr 1; omega
      rw [ih _ _ _ (by omega), hsplit, bitsLoop_add, bitsLoop_in_byte s v (by omega) hk,
        show k + take + (left - take) = k + left by omega]
      rfl

/-- Settles O18: the check is the same, and `n` steps of at least one bit are enough. -/
theorem chunkedFormEqualsBits : Obligations.ChunkedFormEqualsBits := by
  intro s p n
  unfold State.chunkedBits State.bits
  rw [chunkSteps_eq_bitsLoop s n 0 p n (Nat.le_refl n)]
  rfl

/-! ### Two reads and one (spec/20_memory.md R59) -/

/-- The value of a field in two parts. -/
theorem ofNat_fieldNat_add (s : State) (p : Nat) {m n : Nat} (h : m + n ≤ 64) :
    BitVec.ofNat 64 (s.fieldNat p (m + n)) =
      (BitVec.ofNat 64 (s.fieldNat p m) <<< n) ||| BitVec.ofNat 64 (s.fieldNat (p + m) n) := by
  have hm := toNat_ofNat_fieldNat s p (n := m) (by omega)
  have hn := toNat_ofNat_fieldNat s (p + m) (n := n) (by omega)
  refine BitVec.eq_of_toNat_eq ?_
  rw [toNat_shiftLeft_or _ _ _ (by rw [hn]; exact fieldNat_lt s (p + m) n), hm, hn, fieldNat_add, BitVec.toNat_ofNat]

/-- Settles O19. -/
theorem narrowReadsCompose : Obligations.NarrowReadsCompose := by
  constructor
  · intro s p n1 n2 v1 v2 hn h1 h2
    obtain ⟨hr1, rfl, _⟩ := bits_ok_inv s h1
    obtain ⟨hr2, rfl, _⟩ := bits_ok_inv s h2
    rw [bits_readable s p (n1 + n2) ((readable_add s p n1 n2).mpr ⟨hr1, hr2⟩), ofNat_fieldNat_add s p hn,
      Nat.add_assoc]
  · intro s p n1 n2 hw
    constructor
    · rintro ⟨⟨v, h1⟩, h2⟩
      exact ⟨(bits_ok_inv s h1).1.1, (bits_error_inv s h2).2⟩
    · rintro ⟨hin, hout⟩
      exact ⟨⟨_, bits_readable s p n1 ⟨hin, hw⟩⟩, bits_short s (p + n1) n2 hout⟩

end Sys2Proof.Machine
end

section
/-! The family of spec/20_memory.md: the fault of an unwritten byte (R62), command by command. -/

namespace Sys2Proof.Machine

/-! ### A read that meets an unwritten byte (spec/20_memory.md R62) -/

/-- A body that meets an unwritten byte ends its command in the fault. -/
theorem gated_uninit {s : State} {b : Except Stop State} {a : Nat} (he : s.err = .none)
    (hb : b = .error (.uninitRead a)) : gated s b = .fault (.uninitRead a) := by
  rw [gated_ready b he, hb]; rfl

/-- READ, HDR, LTYPE, COUNT and TLEN read one field of their width (spec/20_memory.md R60). -/
theorem exec_of_singleRead {i : Instr} {n : Nat} (h : singleRead i = some n) (s : State) :
    ∃ f, exec i s = gated s (s.readField n f) := by
  cases i <;> cases h <;> exact ⟨_, rfl⟩

theorem pktLiteral_unwritten {s : State} {p g j : Nat} (ver typ : BitVec 3) (h : s.LiteralUnwritten p g j) :
    s.pktLiteral ver typ p = .error (.uninitRead ((p + 5 * g + j) / 8)) := by
  unfold State.pktLiteral
  rw [litLoop_literalUnwritten s p g j h]; rfl

theorem pktOperator_ltypeUnwritten {s : State} {p j : Nat} (ver typ : BitVec 3) (h : s.FirstUnwritten p 1 j) :
    s.pktOperator ver typ p = .error (.uninitRead ((p + j) / 8)) := by
  unfold State.pktOperator
  rw [bits_firstUnwritten s p 1 j h]; rfl

/-- PKT's operator head once the length type is read: the count or the total length is left to read. -/
theorem pktOperator_ltype {s : State} {p : Nat} (ver typ : BitVec 3) (h : s.Readable p 1) :
    s.pktOperator ver typ p = if s.bitAt p = 1
      then (s.bits (p + 1) 11).bind fun (c, q) => .ok (s.answered q (respPktCount ver typ c q s.pos))
      else (s.bits (p + 1) 15).bind fun (total, q) => .ok (s.answered q (respPktLength ver typ total q s.pos)) := by
  unfold State.pktOperator
  rw [bits_readable s p 1 h]
  simp only [bind, Except.bind, ltype_flag, decide_eq_true_eq]
  rfl

theorem pktOperator_countUnwritten {s : State} {p j : Nat} (ver typ : BitVec 3) (h : s.Readable p 1)
    (hb : s.bitAt p = 1) (hu : s.FirstUnwritten (p + 1) 11 j) :
    s.pktOperator ver typ p = .error (.uninitRead ((p + 1 + j) / 8)) := by
  rw [pktOperator_ltype ver typ h, if_pos hb, bits_firstUnwritten s _ 11 j hu]; rfl

theorem pktOperator_lengthUnwritten {s : State} {p j : Nat} (ver typ : BitVec 3) (h : s.Readable p 1)
    (hb : s.bitAt p = 0) (hu : s.FirstUnwritten (p + 1) 15 j) :
    s.pktOperator ver typ p = .error (.uninitRead ((p + 1 + j) / 8)) := by
  rw [pktOperator_ltype ver typ h, if_neg (by omega), bits_firstUnwritten s _ 15 j hu]; rfl

theorem pktBody_versionUnwritten {s : State} {j : Nat} (h : s.FirstUnwritten s.pos 3 j) :
    s.pktBody = .error (.uninitRead ((s.pos + j) / 8)) := by
  unfold State.pktBody
  rw [bits_firstUnwritten s s.pos 3 j h]; rfl

theorem pktBody_typeUnwritten {s : State} {j : Nat} (h : s.Readable s.pos 3) (hu : s.FirstUnwritten (s.pos + 3) 3 j) :
    s.pktBody = .error (.uninitRead ((s.pos + 3 + j) / 8)) := by
  unfold State.pktBody
  rw [bits_readable s s.pos 3 h]
  simp only [bind, Except.bind]
  rw [bits_firstUnwritten s (s.pos + 3) 3 j hu]

theorem pktBody_literalUnwritten {s : State} {g j : Nat} (h : s.Readable s.pos 6) (h4 : s.fieldNat (s.pos + 3) 3 = 4)
    (hu : s.LiteralUnwritten (s.pos + 6) g j) :
    s.pktBody = .error (.uninitRead ((s.pos + 6 + 5 * g + j) / 8)) := by
  rw [pktBody_header s h, if_pos h4, pktLiteral_unwritten _ _ hu]

theorem pktBody_ltypeUnwritten {s : State} (h : s.Readable s.pos 6) (h4 : s.fieldNat (s.pos + 3) 3 ≠ 4)
    (hu : s.FirstUnwritten (s.pos + 6) 1 0) : s.pktBody = .error (.uninitRead ((s.pos + 6) / 8)) := by
  rw [pktBody_header s h, if_neg h4, pktOperator_ltypeUnwritten _ _ hu, Nat.add_zero]

theorem pktBody_countUnwritten {s : State} {j : Nat} (h : s.Readable s.pos 7) (h4 : s.fieldNat (s.pos + 3) 3 ≠ 4)
    (hb : s.bitAt (s.pos + 6) = 1) (hu : s.FirstUnwritten (s.pos + 7) 11 j) :
    s.pktBody = .error (.uninitRead ((s.pos + 7 + j) / 8)) := by
  obtain ⟨hr6, hr1⟩ := (readable_add s s.pos 6 1).mp h
  rw [pktBody_header s hr6, if_neg h4, pktOperator_countUnwritten _ _ hr1 hb hu]

theorem pktBody_lengthUnwritten {s : State} {j : Nat} (h : s.Readable s.pos 7) (h4 : s.fieldNat (s.pos + 3) 3 ≠ 4)
    (hb : s.bitAt (s.pos + 6) = 0) (hu : s.FirstUnwritten (s.pos + 7) 15 j) :
    s.pktBody = .error (.uninitRead ((s.pos + 7 + j) / 8)) := by
  obtain ⟨hr6, hr1⟩ := (readable_add s s.pos 6 1).mp h
  rw [pktBody_header s hr6, if_neg h4, pktOperator_lengthUnwritten _ _ hr1 hb hu]

/-! ### A command that succeeded has read written bytes only (spec/20_memory.md R62) -/

theorem readable_of_gated_readField {s t : State} {n : Nat} {f : BitVec 64 → Nat → Resp}
    (h : gated s (s.readField n f) = .next t) (hs : t.resp.status = .none) : s.Readable s.pos (t.pos - s.pos) := by
  obtain ⟨_, hr, rfl⟩ := gated_readField_inv h hs
  rwa [State.answered_pos, Nat.add_sub_cancel_left]

theorem readable_of_execLit {s t : State} (h : execLit s = .next t) (hs : t.resp.status = .none) :
    s.Readable s.pos (t.pos - s.pos) := by
  rcases gated_next h with ⟨he, rfl⟩ | ⟨_, hb | ⟨e, hb, rfl⟩⟩
  · exact absurd hs he
  · rcases litLoop_cases s s.pos with ⟨g, hl, e⟩ | e | ⟨a, _, _, e⟩ <;> rw [e] at hb <;> cases hb
    rw [State.writeResp_pos, State.setPos_pos, Nat.add_sub_cancel_left]
    exact hl.2.1
  · have hbody := execLit_body s
    rw [hb] at hbody
    cases hbody
    cases hs

theorem readable_of_execPkt {s t : State} (h : execPkt s = .next t) (hs : t.resp.status = .none) :
    s.Readable s.pos (t.pos - s.pos) := by
  obtain ⟨_, hb⟩ := execPkt_inv h hs
  rcases pktBody_cases s with ⟨g, hr, _, hl, e⟩ | ⟨hr, _, _, e⟩ | ⟨hr, _, _, e⟩ | e | ⟨a, _, _, e⟩ <;> rw [e] at hb <;>
    cases hb <;> rw [State.answered_pos, Nat.add_sub_cancel_left]
  · exact (readable_add s s.pos 6 (5 * g)).mpr ⟨hr, hl.2.1⟩
  · exact hr
  · exact hr

/-- A command that reads the stream and succeeded moved POS over readable bits. -/
theorem readable_of_exec {i : Instr} {s t : State} (hi : isExtraction i = true) (h : exec i s = .next t)
    (hs : t.resp.status = .none) : s.Readable s.pos (t.pos - s.pos) := by
  cases i with
  | read w => exact readable_of_gated_readField h hs
  | hdr => exact readable_of_gated_readField h hs
  | lit => exact readable_of_execLit h hs
  | ltype => exact readable_of_gated_readField h hs
  | count => exact readable_of_gated_readField h hs
  | tlen => exact readable_of_gated_readField h hs
  | pkt => exact readable_of_execPkt h hs
  | nop => cases hi
  | chk => cases hi
  | start => cases hi
  | wrbuf => cases hi

/-- Settles O38: every body of one read, of `LitLoop` or of PKT ends in the fault of its first read that meets an
unwritten byte. -/
theorem readingAnUnwrittenByteFaults : Obligations.ReadingAnUnwrittenByteFaults := by
  refine ⟨fun i n j s hi he hu => ?_, fun g j s he hu => ?_, fun s he => ?_,
    fun i s t hi h hs => (readable_of_exec hi h hs).2⟩
  · obtain ⟨f, hf⟩ := exec_of_singleRead hi s
    obtain ⟨hlen, hj, hw, hk⟩ := hu
    rw [hf, gated_uninit he (readField_unwritten s n j f hlen hj hw hk)]
  · exact gated_uninit he (by rw [litLoop_literalUnwritten s s.pos g j hu]; rfl)
  · exact ⟨fun j hu => gated_uninit he (pktBody_versionUnwritten hu),
      fun j hr hu => gated_uninit he (pktBody_typeUnwritten hr hu),
      fun g j hr h4 hu => gated_uninit he (pktBody_literalUnwritten hr h4 hu),
      fun hr h4 hu => gated_uninit he (pktBody_ltypeUnwritten hr h4 hu),
      fun j hr h4 hb hu => gated_uninit he (pktBody_countUnwritten hr h4 hb hu),
      fun j hr h4 hb hu => gated_uninit he (pktBody_lengthUnwritten hr h4 hb hu)⟩

/-- Settles O39: only a body that reads the stream answers with a fault, and it names an unknown byte below LEN. -/
theorem onlyUninitReadStopsACommand : Obligations.OnlyUninitReadStopsACommand := by
  intro i s
  cases hi : isExtraction i with
  | false =>
    obtain ⟨t, ht⟩ := exec_other_next i s hi
    rw [ht]
    exact ⟨nofun, nofun⟩
  | true =>
    obtain ⟨b, hb, hans⟩ := exec_extraction i s hi
    rw [hb]
    refine ⟨fun f hf => ?_, fun r => gated_not_refused⟩
    obtain ⟨he, a, rfl, rfl⟩ := gated_fault hf
    cases hans with
    | uninit _ ha hk => exact ⟨rfl, he, a, rfl, ha, hk⟩

end Sys2Proof.Machine
end

section
/-! The family of spec/20_memory.md: what LOAD leaves (spec/30_encoding.md R78). -/

namespace Sys2Proof.Machine

/-! ### The commands of a LOAD (spec/30_encoding.md R78) -/

theorem assembleWrbuf_inv {addr byte : Nat} {i : Instr} (h : assembleWrbuf addr byte = some i) :
    addr < 2 ^ 56 ∧ i = .wrbuf (BitVec.ofNat 56 addr) (BitVec.ofNat 8 byte) := by
  simp only [assembleWrbuf, addrOk, Option.ite_none_right_eq_some, Bool.and_eq_true, decide_eq_true_eq,
    Option.some.injEq] at h
  obtain ⟨⟨haddr, _⟩, rfl⟩ := h
  exact ⟨haddr, rfl⟩

theorem assembleStart_inv {len : Nat} {i : Instr} (h : assembleStart len = some i) :
    len < 2 ^ 64 ∧ i = .start (BitVec.ofNat 64 len) := by
  simp only [assembleStart, dataOk, Option.ite_none_right_eq_some, decide_eq_true_eq, Option.some.injEq] at h
  obtain ⟨hdata, rfl⟩ := h
  exact ⟨hdata, rfl⟩

theorem assembleBytes_cons_inv {k b : Nat} {bytes : List Nat} {cmds : List Instr}
    (h : assembleBytes k (b :: bytes) = some cmds) :
    ∃ i is, assembleWrbuf k b = some i ∧ assembleBytes (k + 1) bytes = some is ∧ cmds = i :: is := by
  simp only [assembleBytes, Option.bind_eq_bind, Option.bind_eq_some_iff, Option.pure_def, Option.some.injEq] at h
  obtain ⟨i, hi, is, his, rfl⟩ := h
  exact ⟨i, is, hi, his, rfl⟩

theorem assembleLoad_inv {p : Params} {bytes : List Nat} {cmds : List Instr} (h : assembleLoad p bytes = some cmds) :
    bytes.length ≤ p.bufBytes ∧ ∃ is i, assembleBytes 0 bytes = some is ∧ assembleStart bytes.length = some i ∧
      cmds = is ++ [i] := by
  simp only [assembleLoad, Option.ite_none_right_eq_some, Option.bind_eq_bind, Option.bind_eq_some_iff,
    Option.pure_def, Option.some.injEq] at h
  obtain ⟨hlen, is, his, i, hi, rfl⟩ := h
  exact ⟨hlen, is, i, his, hi, rfl⟩

/-! ### Running them (spec/42_control.md R161, R162) -/

theorem exec_wrbuf_of_lt {addr : BitVec 56} {s : State} (byte : BitVec 8) (h : wrbufAddr addr < s.params.bufBytes) :
    exec (.wrbuf addr byte) s = .next ((s.writeByte (wrbufAddr addr) byte).writeResp Resp.zero) :=
  congrArg (conclude s) (if_neg (Nat.not_le.mpr h))

theorem exec_start_of_le {len : BitVec 64} {s : State} (h : len.toNat ≤ s.params.bufBytes) :
    exec (.start len) s = .next ((s.beginStream len.toNat).writeResp Resp.zero) :=
  congrArg (conclude s) (if_neg (Nat.not_lt.mpr h))

theorem execAll_cons {i : Instr} {s t : State} (h : exec i s = .next t) (rest : List Instr) :
    execAll (i :: rest) s = execAll rest t := by
  rw [execAll, h]

theorem execAll_append {is : List Instr} {s t : State} (h : execAll is s = .next t) (rest : List Instr) :
    execAll (is ++ rest) s = execAll rest t := by
  induction is generalizing s with
  | nil => cases h; rfl
  | cons i is ih =>
    cases hi : exec i s with
    | next u =>
      rw [execAll_cons hi] at h
      rw [List.cons_append, execAll_cons hi, ih h]
    | fault f => rw [execAll, hi] at h; cases h
    | refused r => rw [execAll, hi] at h; cases h

/-- A byte that a stream read gives is known. -/
theorem known_of_readByte {s : State} {a : Nat} {b : BitVec 8} (h : s.readByte a = .ok b) : s.known a = true := by
  cases hk : s.known a with
  | true => rfl
  | false => rw [readByte_unknown s a hk] at h; cases h

/-- The WRBUFs of a LOAD from byte `k` on write the bytes there and leave those below. -/
theorem execAll_assembleBytes {k : Nat} {bytes : List Nat} {is : List Instr} (h : assembleBytes k bytes = some is)
    {s : State} (hlen : k + bytes.length ≤ s.params.bufBytes) :
    ∃ t, execAll is s = .next t ∧ t.params = s.params ∧ (∀ a, a < k → t.readByte a = s.readByte a) ∧
      ∀ j b, bytes[j]? = some b → t.readByte (k + j) = .ok (BitVec.ofNat 8 b) := by
  induction bytes generalizing k is s with
  | nil => cases h; exact ⟨s, rfl, rfl, fun _ _ => rfl, nofun⟩
  | cons b bytes ih =>
    obtain ⟨i, is, hi, his, rfl⟩ := assembleBytes_cons_inv h
    obtain ⟨hk, rfl⟩ := assembleWrbuf_inv hi
    rw [List.length_cons] at hlen
    have haddr : wrbufAddr (BitVec.ofNat 56 k) = k := Nat.mod_eq_of_lt hk
    have hexec := exec_wrbuf_of_lt (addr := BitVec.ofNat 56 k) (s := s) (BitVec.ofNat 8 b) (by omega)
    rw [haddr] at hexec
    obtain ⟨t, ht, hparams, hbelow, hbytes⟩ :=
      ih his (s := (s.writeByte k (BitVec.ofNat 8 b)).writeResp Resp.zero) (show k + 1 + _ ≤ s.params.bufBytes by omega)
    refine ⟨t, (execAll_cons hexec is).trans ht, hparams, fun a ha => ?_, fun j c hj => ?_⟩
    · rw [hbelow a (by omega)]
      exact readByte_writeByte_ne s _ (by omega)
    · cases j with
      | zero =>
        cases hj
        rw [Nat.add_zero, hbelow k (by omega)]
        exact readByte_writeByte_self s k _
      | succ j =>
        rw [show k + (j + 1) = k + 1 + j by omega]
        exact hbytes j c hj

/-- Settles O49: the WRBUFs write the bytes, and the START leaves BUF as they left it. -/
theorem loadLeavesTheBytesAsTheStream : Obligations.LoadLeavesTheBytesAsTheStream := by
  intro s bytes cmds h
  obtain ⟨hlen, is, i, his, hi, rfl⟩ := assembleLoad_inv h
  obtain ⟨hdata, rfl⟩ := assembleStart_inv hi
  obtain ⟨u, hu, hparams, -, hbytes⟩ := execAll_assembleBytes his (s := s) (by omega)
  have hnat : (BitVec.ofNat 64 bytes.length).toNat = bytes.length := Nat.mod_eq_of_lt hdata
  have hstart := exec_start_of_le (len := BitVec.ofNat 64 bytes.length) (s := u) (by rw [hnat, hparams]; exact hlen)
  rw [hnat] at hstart
  have hread (a b : Nat) (hb : bytes[a]? = some b) : u.readByte a = .ok (BitVec.ofNat 8 b) := by
    have := hbytes a b hb
    rwa [Nat.zero_add] at this
  refine ⟨_, (execAll_append hu _).trans (execAll_cons hstart []), rfl, rfl, rfl, rfl, fun a ha => ?_, hread⟩
  exact known_of_readByte (hread a _ (List.getElem?_eq_getElem ha))

end Sys2Proof.Machine
end

section
/-! The family of spec/30_encoding.md: the decoder and the encoder undo each other, the well-formed words, what DATA is
used for, the dispatch of an offered word, and what the assembler encodes. -/

namespace Sys2Proof.Machine

open Sys2Proof.Laws.EncodedWordIsWellFormed (opcodeOf)

/-! ### Decoding an encoded command (spec/30_encoding.md R72, R76) -/

theorem decode_encode_read (w : BitVec 6) : decode (encodeCmd (.read w)) (encodeData (.read w)) = .ok (.read w) := by
  obtain ⟨hop, hrsv, hw⟩ := encodeCmd_read_fields w
  simp only [decode, hop, hrsv, hw]
  rfl

/-- A WRBUF word decodes to the two parts of DATA. -/
theorem decode_wrbuf_word (data : Word64) :
    decode 0xA000#16 data = .ok (.wrbuf (dataAddr data) (dataByte data)) := decodePlain_eq_ok.mpr ⟨⟨rfl, rfl⟩, rfl⟩

/-- Settles O2: READ and WRBUF by their packed fields; the word of any other command is a constant. -/
theorem decodeOfEncodeIsIdentity : Obligations.DecodeOfEncodeIsIdentity := by
  intro i
  cases i with
  | read w => exact decode_encode_read w
  | wrbuf addr byte =>
    rw [encodeCmd, encodeData, decode_wrbuf_word, dataAddr_wrbufData, dataByte_wrbufData]
  | _ => simp only [encodeCmd]; exact decodePlain_eq_ok.mpr ⟨⟨rfl, rfl⟩, rfl⟩

/-- Settles O1: each word and its DATA are the encoding of the command. -/
theorem specWordsDecode : Obligations.SpecWordsDecode :=
  ⟨decodeOfEncodeIsIdentity .nop, decodeOfEncodeIsIdentity (.read 0), decodeOfEncodeIsIdentity (.read 63),
    decodeOfEncodeIsIdentity .hdr, decodeOfEncodeIsIdentity .lit, decodeOfEncodeIsIdentity .ltype,
    decodeOfEncodeIsIdentity .count, decodeOfEncodeIsIdentity .tlen, decodeOfEncodeIsIdentity .pkt,
    decodeOfEncodeIsIdentity (.chk 49), decodeOfEncodeIsIdentity (.start 64),
    decodeOfEncodeIsIdentity (.wrbuf 2 0x28#8)⟩

/-! ### The words that decode (spec/30_encoding.md R74, R75) -/

/-- Settles O3, by the fields of the word. -/
theorem decodeAcceptsExactlyTheWellFormedWords : Obligations.DecodeAcceptsExactlyTheWellFormedWords :=
  decode_ok_iff_wellFormed

/-- A command word is determined by its three fields. -/
theorem cmd_ext {c d : CmdWord} (hop : opField c = opField d) (hrsv : rsvField c = rsvField d)
    (hw : wField c = wField d) : c = d :=
  BitVec.eq_of_toNat_eq (by rw [toNat_cmd, toNat_cmd d, hop, hrsv, hw])

theorem opField_encodeCmd (i : Instr) : opField (encodeCmd i) = opcodeOf i :=
  decode_opField (decodeOfEncodeIsIdentity i)

/-- RSV and W are zero in the word of every command but READ. -/
theorem encodeCmd_low_fields {i : Instr} (h : ∀ w, i ≠ .read w) :
    rsvField (encodeCmd i) = 0 ∧ wField (encodeCmd i) = 0 := by
  cases i with
  | read w => exact absurd rfl (h w)
  | _ => simp only [encodeCmd]; decide

/-- A word that decodes is the encoding of its command. -/
theorem encodeCmd_of_decode {cmd : CmdWord} {data : Word64} {i : Instr} (h : decode cmd data = .ok i) :
    encodeCmd i = cmd := by
  have hop : opField (encodeCmd i) = opField cmd := (opField_encodeCmd i).trans (decode_opField h).symm
  unfold decode at h
  split at h
  case h_2 =>
    split at h <;> cases h
    obtain ⟨_, hrsv, hw⟩ := encodeCmd_read_fields (wField cmd)
    exact cmd_ext hop (hrsv.trans (Eq.symm ‹_›)) hw
  case h_12 => cases h
  all_goals
    obtain ⟨⟨hrsv, hw⟩, hi⟩ := decodePlain_eq_ok.mp h
    obtain ⟨hrsv', hw'⟩ := encodeCmd_low_fields (i := i) (by rintro w rfl; cases hi)
    exact cmd_ext hop (hrsv'.trans hrsv.symm) (hw'.trans hw.symm)

/-- A command that takes DATA encodes to the DATA it was decoded from; any other encodes to DATA 0. -/
theorem encodeData_of_decode {cmd : CmdWord} {data : Word64} {i : Instr} (h : decode cmd data = .ok i) :
    encodeData i = data ∨
      (encodeData i = 0 ∧ opcodeOf i ≠ 0x8#4 ∧ opcodeOf i ≠ 0x9#4 ∧ opcodeOf i ≠ 0xA#4) := by
  unfold decode at h
  split at h
  case h_2 =>
    split at h <;> cases h
    exact .inr (by simp [encodeData, opcodeOf])
  case h_12 => cases h
  case h_9 | h_10 =>
    obtain ⟨_, rfl⟩ := decodePlain_eq_ok.mp h
    exact .inl rfl
  case h_11 =>
    obtain ⟨_, rfl⟩ := decodePlain_eq_ok.mp h
    exact .inl (wrbufData_of_data data)
  all_goals
    obtain ⟨_, rfl⟩ := decodePlain_eq_ok.mp h
    exact .inr (by simp [encodeData, opcodeOf])

/-- Settles O4, by the word and then DATA. -/
theorem encodeOfDecodeIsTheWord : Obligations.EncodeOfDecodeIsTheWord := by
  intro cmd data i h
  rw [decode_opField h]
  exact ⟨encodeCmd_of_decode h, encodeData_of_decode h⟩

/-- The READ of every width, and one command of each other opcode. -/
def oneCommandPerWord : List Instr :=
  (List.finRange 64).map (fun w => .read (BitVec.ofFin w)) ++
    [.nop, .hdr, .lit, .ltype, .count, .tlen, .pkt, .chk 0, .start 0, .wrbuf 0 0]

theorem encodeCmd_mem_oneCommandPerWord (i : Instr) : encodeCmd i ∈ oneCommandPerWord.map encodeCmd := by
  cases i with
  | read w =>
    refine List.mem_map_of_mem (List.mem_append_left _ ?_)
    exact List.mem_map.mpr ⟨w.toFin, List.mem_finRange _, rfl⟩
  | _ =>
    rw [oneCommandPerWord, List.map_append]
    exact List.mem_append_right _ (by simp [encodeCmd])

/-- Settles O5: the well-formed words are the encodings of the commands. -/
theorem exactlySeventyFourWordsAreWellFormed : Obligations.ExactlySeventyFourWordsAreWellFormed := by
  refine ⟨oneCommandPerWord.map encodeCmd, by decide, by decide, fun cmd => ⟨fun hmem => ?_, fun hwf => ?_⟩⟩
  · obtain ⟨i, _, rfl⟩ := List.mem_map.mp hmem
    exact (decode_ok_iff_wellFormed _ _).mp ⟨i, decodeOfEncodeIsIdentity i⟩
  · obtain ⟨i, hi⟩ := (decode_ok_iff_wellFormed cmd 0).mpr hwf
    rw [← encodeCmd_of_decode hi]
    exact encodeCmd_mem_oneCommandPerWord i

/-! ### What DATA is used for (spec/30_encoding.md R76) -/

/-- The decoder looks at DATA only for CHK, START and WRBUF. -/
theorem decode_data_irrelevant {cmd : CmdWord} (d1 d2 : Word64) (hchk : opField cmd ≠ 0x8#4)
    (hstart : opField cmd ≠ 0x9#4) (hwrbuf : opField cmd ≠ 0xA#4) : decode cmd d1 = decode cmd d2 := by
  unfold decode
  split
  case h_9 hop => exact absurd (BitVec.eq_of_toNat_eq hop) hchk
  case h_10 hop => exact absurd (BitVec.eq_of_toNat_eq hop) hstart
  case h_11 hop => exact absurd (BitVec.eq_of_toNat_eq hop) hwrbuf
  all_goals rfl

/-- Settles O6: the three words take DATA apart, and `accept` uses DATA only through the decoder. -/
theorem dataOperandUse : Obligations.DataOperandUse := by
  refine ⟨fun data => ⟨decodeOfEncodeIsIdentity (.chk data), decodeOfEncodeIsIdentity (.start data),
    decode_wrbuf_word data⟩, fun cmd d1 d2 s hchk hstart hwrbuf => ?_⟩
  rw [accept, accept, decode_data_irrelevant d1 d2 hchk hstart hwrbuf]

/-! ### The dispatch of an offered word (spec/60_exceptions.md R207, R209) -/

theorem accept_of_not_wellFormed {cmd : CmdWord} (data : Word64) (s : State) (h : wellFormed cmd = false) :
    accept cmd data s = malformed s := by
  cases hdec : decode cmd data with
  | error e => rw [accept, hdec]
  | ok i =>
    rw [(decode_ok_iff_wellFormed cmd data).mp ⟨i, hdec⟩] at h
    cases h

/-- While ERR != 0 every word is refused but a well-formed START or WRBUF. -/
theorem accept_refuses {cmd : CmdWord} (data : Word64) {s : State} (herr : s.err ≠ .none)
    (h : ¬ (wellFormed cmd = true ∧ (opField cmd = 0x9#4 ∨ opField cmd = 0xA#4))) :
    accept cmd data s = .next s.refuse := by
  cases hwf : wellFormed cmd with
  | false => rw [accept_of_not_wellFormed data s hwf, malformed, if_neg herr]
  | true =>
    obtain ⟨i, hdec⟩ := (decode_ok_iff_wellFormed cmd data).mpr hwf
    have hi : runsInError i = false := by
      rw [Bool.eq_false_iff, Ne, runsInError_iff_opcodeOf, ← decode_opField hdec]
      exact fun hop => h ⟨hwf, hop⟩
    obtain ⟨b, hb⟩ := exec_gated hi s
    rw [accept_of_decode s hdec, hb, gated_refuses b herr]

/-- Settles O8: the step is `accept`, which refuses, raises BAD_COMMAND, or runs the decoded command. -/
theorem stepFollowsTheDispatchRule : Obligations.StepFollowsTheDispatchRule := by
  intro s cmd data rest hhost
  rw [step_of_command hhost]
  refine ⟨fun herr h => accept_refuses data herr h, fun herr hwf => ?_, fun hwf _ => ?_⟩
  · rw [accept_of_not_wellFormed data _ hwf, malformed, if_pos herr, State.raise, if_pos herr]
    rfl
  · obtain ⟨i, hdec⟩ := (decode_ok_iff_wellFormed cmd data).mpr hwf
    exact ⟨i, encodeCmd_of_decode hdec, hdec, accept_of_decode _ hdec⟩

/-! ### What the assembler encodes (spec/30_encoding.md R77) -/

theorem encodeCmd_read_eq_ofNat : ∀ w : BitVec 6, encodeCmd (.read w) = BitVec.ofNat 16 (0x1000 + w.toNat) := by decide

theorem encodeData_wrbuf_ofNat (addr : Nat) {byte : Nat} (hb : byte ≤ 255) :
    encodeData (.wrbuf (BitVec.ofNat 56 addr) (BitVec.ofNat 8 byte)) = BitVec.ofNat 64 (addr * 256 + byte) := by
  apply BitVec.eq_of_toNat_eq
  rw [encodeData, toNat_wrbufData, BitVec.toNat_ofNat, BitVec.toNat_ofNat, BitVec.toNat_ofNat]
  omega

theorem assembleRead_of_le {n : Nat} (h1 : 1 ≤ n) (h64 : n ≤ 64) :
    assembleRead n = some (.read (BitVec.ofNat 6 (n - 1))) := if_pos (by simp [widthOk, h1, h64])

theorem assembleStart_of_lt {len : Nat} (h : len < 2 ^ 64) : assembleStart len = some (.start (BitVec.ofNat 64 len)) :=
  if_pos (decide_eq_true h)

theorem assembleWrbuf_of_lt {addr byte : Nat} (ha : addr < 2 ^ 56) (hb : byte ≤ 255) :
    assembleWrbuf addr byte = some (.wrbuf (BitVec.ofNat 56 addr) (BitVec.ofNat 8 byte)) :=
  if_pos (by simp only [addrOk, byteOk, ha, hb, decide_true, Bool.and_self])

/-- Settles O50: a refusal is a failed operand check, and each word and DATA is the encoder's. -/
theorem assemblerEncodesTheOperands : Obligations.AssemblerEncodesTheOperands := by
  refine fun p => ⟨fun n => ⟨fun ⟨h1, h64⟩ => ?_, fun h => ?_⟩, fun t ht => ?_, fun len hlen => ?_,
    fun a b => ⟨fun ⟨ha, hb⟩ => ?_, fun h => ?_⟩⟩
  · have hw : (BitVec.ofNat 6 (n - 1)).toNat = n - 1 := Nat.mod_eq_of_lt (by omega)
    simp [assembleLine, assembleRead_of_le h1 h64, encode, encodeCmd_read_eq_ofNat, hw, encodeData]
  · simp [assembleLine, assembleRead, widthOk]; omega
  · rw [assembleLine, if_pos (show dataOk t = true from decide_eq_true ht)]
    rfl
  · simp [assembleLine, assembleStart_of_lt hlen, encode, encodeCmd, encodeData]
  · simp [assembleLine, assembleWrbuf_of_lt ha hb, encode, encodeCmd, encodeData_wrbuf_ofNat a hb]
  · simp [assembleLine, assembleWrbuf, addrOk, byteOk]; omega

end Sys2Proof.Machine
end

section
/-! The family of spec/48_driver.md: how far a decode moves POS, and so how deep it can nest. -/

namespace Sys2Proof.Machine

/-! ### One issued command (spec/48_driver.md R181) -/

theorem accept_encode (i : Instr) (s : State) : accept (encodeCmd i) (encodeData i) s = exec i s :=
  accept_of_decode s (decodeOfEncodeIsIdentity i)

/-- An issued command that returned is one exec that answered with STATUS 0. -/
theorem exec_of_issue {i : Instr} {s t : State} {r : Resp} (h : issue i s = .done r t) :
    exec i s = .next t ∧ r = t.resp ∧ t.resp.status = .none := by
  rw [← accept_encode]
  exact issue_inv h

/-! ### The bits that a decode consumes (spec/30_encoding.md R83, spec/48_driver.md R188) -/

/-- A part of a decode moved POS from `s` on to `t` inside the stream, over at least the bits that packets nested `d` deep
take: 18 for every level but the innermost, and 11 for that one. With no packet it need not move. -/
structure Consumes (d : Nat) (s t : State) : Prop where
  len_eq : t.len = s.len
  mono   : s.pos ≤ t.pos
  fits   : t.pos ≤ 8 * s.len
  bits   : s.pos + 18 * d ≤ t.pos + 7

theorem Consumes.zero {s t : State} (hlen : t.len = s.len) (hpos : t.pos = s.pos) (hfit : s.pos ≤ 8 * s.len) :
    Consumes 0 s t := ⟨hlen, by omega, by omega, by omega⟩

/-- A packet and then its later siblings. -/
theorem Consumes.trans {c d : Nat} {s u t : State} (hc : Consumes c s u) (hd : Consumes d u t) :
    Consumes (max c d) s t := by
  obtain ⟨hlen1, hmono1, hfit1, hbits1⟩ := hc
  obtain ⟨hlen2, hmono2, hfit2, hbits2⟩ := hd
  exact ⟨by omega, by omega, by omega, by omega⟩

/-- An operator's head and then its children. -/
theorem Consumes.operator {d : Nat} {s u t : State} (hlen : u.len = s.len) (hhead : s.pos + 18 ≤ u.pos)
    (hd : Consumes d u t) : Consumes (1 + d) s t := by
  obtain ⟨hlen2, hmono2, hfit2, hbits2⟩ := hd
  exact ⟨by omega, by omega, by omega, by omega⟩

/-- A PKT that returned a literal read at least 11 bits, and any other head at least 18. -/
theorem issue_pkt_consumes {s t : State} {r : Resp} (h : issue .pkt s = .done r t) :
    t.len = s.len ∧ t.pos ≤ 8 * s.len ∧
      ((r.kind = .literal ∧ s.pos + 11 ≤ t.pos) ∨ (r.kind ≠ .literal ∧ s.pos + 18 ≤ t.pos)) := by
  obtain ⟨hexec, rfl, hs⟩ := exec_of_issue h
  obtain ⟨_, hb⟩ := execPkt_inv hexec hs
  rcases pktBody_cases s with ⟨g, _, _, hlit, e⟩ | ⟨hr, _, _, e⟩ | ⟨hr, _, _, e⟩ | e | ⟨a, _, _, e⟩ <;>
    rw [e] at hb <;> cases hb
  · have hg := hlit.1
    have hfit := hlit.2.1.1
    exact ⟨rfl, show s.pos + (6 + 5 * g) ≤ _ by omega, .inl ⟨rfl, show _ ≤ s.pos + (6 + 5 * g) by omega⟩⟩
  · exact ⟨rfl, hr.1, .inr ⟨nofun, Nat.le_refl _⟩⟩
  · exact ⟨rfl, hr.1, .inr ⟨nofun, show _ ≤ s.pos + 22 by omega⟩⟩

/-- Testing whether the children are done moves nothing. -/
theorem childrenDone_pos_len {u : Until} {sofar : Nat} {s t : State} {b : Bool} (h : childrenDone u sofar s = .done b t) :
    t.pos = s.pos ∧ t.len = s.len := by
  cases u with
  | count c => cases h; exact ⟨rfl, rfl⟩
  | length target =>
    obtain ⟨r, v, hissue, hdone⟩ := andThen_done h
    cases hdone
    obtain ⟨hexec, _, _⟩ := exec_of_issue hissue
    rw [(nopAndChkFrame _ s t (.inr ⟨_, rfl⟩) hexec).1]
    exact ⟨rfl, rfl⟩

/-- Decoding a packet, or children, consumes the bits of their depth. -/
theorem decode_consumes (fuel : Nat) :
    (∀ {s t : State} {p : Packet × List Resp}, decodePacket fuel s = .done p t → 1 ≤ p.1.depth ∧ Consumes p.1.depth s t) ∧
    (∀ {u : Until} {sofar : Nat} {s t : State} {ps : List Packet × List Resp}, s.pos ≤ 8 * s.len →
      decodeChildren fuel u sofar s = .done ps t → Consumes (Packet.depthList ps.1) s t) := by
  induction fuel with
  | zero => exact ⟨nofun, nofun⟩
  | succ fuel ih =>
    obtain ⟨ihPacket, ihChildren⟩ := ih
    refine ⟨fun {s t p} h => ?_, fun {u sofar s t ps} hfit h => ?_⟩
    · rw [decodePacket] at h
      obtain ⟨r, v, hpkt, h⟩ := andThen_done h
      obtain ⟨hlen, hfit, ⟨hkind, hpos⟩ | ⟨hkind, hpos⟩⟩ := issue_pkt_consumes hpkt
      · rw [if_pos hkind] at h
        cases h
        rw [Packet.depth]
        exact ⟨Nat.le_refl _, hlen, by omega, hfit, by omega⟩
      · rw [if_neg hkind] at h
        obtain ⟨ps, w, hps, h⟩ := andThen_done h
        cases h
        rw [Packet.depth]
        exact ⟨Nat.le_add_right _ _, (ihChildren (by omega) hps).operator hlen hpos⟩
    · rw [decodeChildren] at h
      obtain ⟨finished, v, hdone, h⟩ := andThen_done h
      obtain ⟨hpos, hlen⟩ := childrenDone_pos_len hdone
      have hv := Consumes.zero hlen hpos hfit
      cases finished with
      | true => cases h; exact hv
      | false =>
        obtain ⟨p, w, hp, h⟩ := andThen_done h
        obtain ⟨rest, x, hrest, h⟩ := andThen_done h
        cases h
        obtain ⟨-, hp⟩ := ihPacket hp
        rw [Packet.depthList]
        simpa using (hv.trans hp).trans (ihChildren (by rw [hp.len_eq]; exact hp.fits) hrest)

/-- Settles O56: the packet consumed the bits of its depth, inside the stream. -/
theorem nestingDepthIsBounded : Obligations.NestingDepthIsBounded := by
  intro s t p tokens h
  obtain ⟨hdepth, -, -, hfit, hbits⟩ := (decode_consumes _).1 h
  change 1 ≤ p.depth at hdepth
  change s.pos + 18 * p.depth ≤ t.pos + 7 at hbits
  omega

end Sys2Proof.Machine
end

section
/-! The family of spec/48_driver.md: the load and the skip of a whole decode. -/

namespace Sys2Proof.Machine

/-! ### Issuing commands one after another (spec/48_driver.md R181, R185) -/

theorem issue_of_exec {i : Instr} {s t : State} (h : exec i s = .next t) (hs : t.resp.status = .none) :
    issue i s = .done t.resp t := by
  simp only [issue, accept_encode, h, if_pos hs]

theorem issue_of_exec_error {i : Instr} {s t : State} (h : exec i s = .next t) (hs : t.resp.status ≠ .none) :
    issue i s = .failed t.resp.status t := by
  simp only [issue, accept_encode, h, if_neg hs]

theorem issueAll_cons {i : Instr} {s t : State} {r : Resp} (h : issue i s = .done r t) (rest : List Instr) :
    issueAll (i :: rest) s = issueAll rest t := by
  rw [issueAll, h]
  rfl

theorem issueAll_append {is : List Instr} {s t : State} (h : issueAll is s = .done () t) (rest : List Instr) :
    issueAll (is ++ rest) s = issueAll rest t := by
  induction is generalizing s with
  | nil => cases h; rfl
  | cons i is ih =>
    rw [issueAll] at h
    obtain ⟨r, u, hi, h⟩ := andThen_done h
    rw [List.cons_append, issueAll_cons hi, ih h]

/-- A command that answers with STATUS 0 in every state of a BCX with these parameters, and keeps them. -/
def Succeeds (p : Params) (i : Instr) : Prop :=
  ∀ s : State, s.params = p → ∃ t, exec i s = .next t ∧ t.resp.status = .none ∧ t.params = p

/-- Issuing commands that all succeed is running them. -/
theorem issueAll_of_execAll {is : List Instr} {s t : State} (hok : ∀ i ∈ is, Succeeds s.params i)
    (h : execAll is s = .next t) : issueAll is s = .done () t := by
  induction is generalizing s with
  | nil => cases h; rfl
  | cons i is ih =>
    obtain ⟨u, hu, hs, hparams⟩ := hok i List.mem_cons_self s rfl
    rw [execAll_cons hu] at h
    rw [issueAll_cons (issue_of_exec hu hs)]
    exact ih (fun j hj => hparams ▸ hok j (List.mem_cons_of_mem _ hj)) h

/-! ### The load (spec/30_encoding.md R78) -/

/-- The assembler takes bytes that WRBUF can address. -/
theorem assembleBytes_of_le {k : Nat} {bytes : List Nat} (hbytes : ∀ b ∈ bytes, b ≤ 255)
    (hlen : k + bytes.length ≤ 2 ^ 56) : ∃ is, assembleBytes k bytes = some is := by
  induction bytes generalizing k with
  | nil => exact ⟨[], rfl⟩
  | cons b bytes ih =>
    rw [List.length_cons] at hlen
    obtain ⟨is, his⟩ := ih (k := k + 1) (fun c hc => hbytes c (List.mem_cons_of_mem _ hc)) (by omega)
    have hb := assembleWrbuf_of_lt (addr := k) (by omega) (hbytes b List.mem_cons_self)
    exact ⟨_, by rw [assembleBytes, hb, his]; rfl⟩

theorem assembleLoad_of_le {p : Params} {bytes : List Nat} (hbytes : ∀ b ∈ bytes, b ≤ 255)
    (hfit : bytes.length ≤ p.bufBytes) (hlen : bytes.length ≤ 2 ^ 56) : ∃ cmds, assembleLoad p bytes = some cmds := by
  obtain ⟨is, his⟩ := assembleBytes_of_le (k := 0) hbytes (by omega)
  exact ⟨_, by rw [assembleLoad, if_pos hfit, his, assembleStart_of_lt (by omega)]; rfl⟩

theorem succeeds_wrbuf {p : Params} {addr : BitVec 56} (byte : BitVec 8) (h : wrbufAddr addr < p.bufBytes) :
    Succeeds p (.wrbuf addr byte) := by
  rintro s rfl
  exact ⟨_, exec_wrbuf_of_lt byte h, rfl, rfl⟩

theorem succeeds_start {p : Params} {len : BitVec 64} (h : len.toNat ≤ p.bufBytes) : Succeeds p (.start len) := by
  rintro s rfl
  exact ⟨_, exec_start_of_le h, rfl, rfl⟩

theorem succeeds_assembleBytes {p : Params} {k : Nat} {bytes : List Nat} {is : List Instr}
    (h : assembleBytes k bytes = some is) (hfit : k + bytes.length ≤ p.bufBytes) : ∀ i ∈ is, Succeeds p i := by
  induction bytes generalizing k is with
  | nil => cases h; exact nofun
  | cons b bytes ih =>
    obtain ⟨i, rest, hi, hrest, rfl⟩ := assembleBytes_cons_inv h
    obtain ⟨hk, rfl⟩ := assembleWrbuf_inv hi
    rw [List.length_cons] at hfit
    have haddr : wrbufAddr (BitVec.ofNat 56 k) = k := Nat.mod_eq_of_lt hk
    exact List.forall_mem_cons.mpr ⟨succeeds_wrbuf _ (by omega), ih hrest (by omega)⟩

theorem succeeds_assembleLoad {p : Params} {bytes : List Nat} {cmds : List Instr}
    (h : assembleLoad p bytes = some cmds) : ∀ i ∈ cmds, Succeeds p i := by
  obtain ⟨hfit, is, i, his, hi, rfl⟩ := assembleLoad_inv h
  obtain ⟨hdata, rfl⟩ := assembleStart_inv hi
  have hlen : (BitVec.ofNat 64 bytes.length).toNat = bytes.length := Nat.mod_eq_of_lt hdata
  refine List.forall_mem_append.mpr ⟨succeeds_assembleBytes his (by omega), ?_⟩
  exact List.forall_mem_singleton.mpr (succeeds_start (by omega))

/-- A load that the assembler takes leaves the bytes as the stream, whatever state it starts from. -/
theorem issueAll_assembleLoad {s : State} {bytes : List Nat} {cmds : List Instr}
    (h : assembleLoad s.params bytes = some cmds) :
    ∃ t, issueAll cmds s = .done () t ∧ t.len = bytes.length ∧ t.pos = 0 ∧ t.err = .none ∧ t.Loaded ∧
      ∀ i b, bytes[i]? = some b → t.readByte i = .ok (BitVec.ofNat 8 b) := by
  obtain ⟨t, ht, hlen, hpos, herr, _, hloaded, hread⟩ := loadLeavesTheBytesAsTheStream s bytes cmds h
  exact ⟨t, issueAll_of_execAll (succeeds_assembleLoad h) ht, hlen, hpos, herr, hloaded, hread⟩

/-! ### The skip (spec/48_driver.md R184) -/

/-- The skip is READs whose widths sum to it. -/
theorem skipCommands_eq (n : Nat) :
    ∃ ws : List (BitVec 6), skipCommands n = ws.map .read ∧ (ws.map readWidth).sum = n := by
  refine ⟨List.replicate (n / 64) 63 ++ if n % 64 = 0 then [] else [BitVec.ofNat 6 (n % 64 - 1)], ?_, ?_⟩
  · rw [skipCommands, List.map_append, List.map_replicate]
    split <;> rfl
  · split <;> simp [readWidth] <;> omega

/-- A READ inside a loaded stream answers, and the commands after it go on from there. -/
theorem issueAll_read_cons {w : BitVec 6} {s : State} (herr : s.err = .none) (hload : s.Loaded)
    (hfit : s.pos + readWidth w ≤ 8 * s.len) (rest : List Instr) :
    issueAll (.read w :: rest) s = issueAll rest (s.answered (s.pos + readWidth w)
      (respField (BitVec.ofNat 64 (s.fieldNat s.pos (readWidth w))) (readWidth w))) :=
  have hexec : exec (.read w) s = _ :=
    gated_readField s (readWidth w) _ herr ⟨hfit, fun k hk => hload _ (by omega)⟩
  issueAll_cons (issue_of_exec hexec rfl) rest

/-- READs inside a loaded stream move POS and change nothing else but RESP. -/
theorem issueAll_reads_inside {ws : List (BitVec 6)} {s : State} (herr : s.err = .none) (hload : s.Loaded)
    (hfit : s.pos + (ws.map readWidth).sum ≤ 8 * s.len) :
    ∃ r v, issueAll (ws.map .read) s =
      .done () { s with pos := s.pos + (ws.map readWidth).sum, resp := r, rspValid := v } := by
  induction ws generalizing s with
  | nil => exact ⟨s.resp, s.rspValid, rfl⟩
  | cons w ws ih =>
    simp only [List.map_cons, List.sum_cons, ← Nat.add_assoc] at hfit ⊢
    rw [issueAll_read_cons herr hload (by omega)]
    exact ih herr hload hfit

/-- READs of a loaded stream that together run past its end fail with OUT_OF_BITS. -/
theorem issueAll_reads_past_end {ws : List (BitVec 6)} {s : State} (herr : s.err = .none) (hload : s.Loaded)
    (hpos : s.pos ≤ 8 * s.len) (hshort : 8 * s.len < s.pos + (ws.map readWidth).sum) :
    ∃ t, issueAll (ws.map .read) s = .failed .outOfBits t := by
  induction ws generalizing s with
  | nil => exact absurd hshort (Nat.not_lt.mpr hpos)
  | cons w ws ih =>
    rw [List.map_cons, List.sum_cons, ← Nat.add_assoc] at hshort
    rw [List.map_cons]
    by_cases hfit : s.pos + readWidth w ≤ 8 * s.len
    · rw [issueAll_read_cons herr hload hfit]
      exact ih herr hload hfit hshort
    · have hexec : exec (.read w) s = .next (s.raise .outOfBits) :=
        (gated_ready _ herr).trans (congrArg (conclude s) (readField_short s _ _ (by omega)))
      exact ⟨_, by rw [issueAll, issue_of_exec_error hexec nofun]; rfl⟩

/-- Settles O58: the load leaves a loaded stream, and the READs of the skip move POS or run past the end. -/
theorem wholeDecodeIsLoadSkipAndOneDecode : Obligations.WholeDecodeIsLoadSkipAndOneDecode := by
  refine fun bytes skip s => ⟨fun hfit haddr => ?_, fun hlong => ?_⟩
  · have hbytes : ∀ b ∈ bytes.map BitVec.toNat, b ≤ 255 := by
      intro b hb
      obtain ⟨x, _, rfl⟩ := List.mem_map.mp hb
      exact Nat.le_of_lt_succ x.isLt
    obtain ⟨load, hload⟩ := assembleLoad_of_le (p := s.params) hbytes (by simpa using hfit) (by simpa using haddr)
    obtain ⟨t, ht, hlen, hpos, herr, hloaded, hread⟩ := issueAll_assembleLoad hload
    obtain ⟨ws, hws, rfl⟩ := skipCommands_eq skip
    rw [List.length_map] at hlen
    refine ⟨_, by rw [wholeDecode, hload, Option.map_some, issueAll_append ht, hws], fun hshort => ?_, fun hin => ?_⟩
    · obtain ⟨u, hu⟩ := issueAll_reads_past_end herr hloaded (by omega) (ws := ws) (by omega)
      exact ⟨u, by rw [hu]; rfl⟩
    · obtain ⟨r, v, hu⟩ := issueAll_reads_inside herr hloaded (ws := ws) (by omega)
      rw [hpos, Nat.zero_add] at hu
      refine ⟨{ t with pos := (ws.map readWidth).sum, resp := r, rspValid := v }, by rw [hu]; rfl, hlen, rfl, herr,
        hloaded, fun i b hb => ?_⟩
      have := hread i b.toNat (by rw [List.getElem?_map, hb]; rfl)
      rwa [BitVec.ofNat_toNat, BitVec.setWidth_eq] at this
  · rw [wholeDecode, assembleLoad, if_neg (by rw [List.length_map]; omega)]
    rfl

end Sys2Proof.Machine
end

section
/-! The family of spec/40_extract.md: what READ returns, and two READs against one wide READ. -/

namespace Sys2Proof.Machine

/-! ### READ (spec/40_extract.md R100) -/

theorem decode_read_word (w : BitVec 6) (data : Word64) :
    decode (0x1000#16 ||| w.setWidth 16) data = .ok (.read w) := by
  have hop : opField (0x1000#16 ||| w.setWidth 16) = 1#4 := (encodeCmd_read_fields w).1
  have hdata := decode_data_irrelevant data 0 (by rw [hop]; decide) (by rw [hop]; decide) (by rw [hop]; decide)
  exact hdata.trans (decode_encode_read w)

/-- READ of a field that can be read. -/
theorem exec_read_readable (w : BitVec 6) {s : State} (he : s.err = .none) (hr : s.Readable s.pos (readWidth w)) :
    exec (.read w) s = .next (s.answered (s.pos + readWidth w)
      (respField (BitVec.ofNat 64 (s.fieldNat s.pos (readWidth w))) (readWidth w))) :=
  gated_readField s (readWidth w) _ he hr

/-- READ of a field that runs past the end of the stream. -/
theorem exec_read_short (w : BitVec 6) {s : State} (he : s.err = .none) (hs : 8 * s.len < s.pos + readWidth w) :
    exec (.read w) s = .next (s.failing .outOfBits) :=
  (gated_ready _ he).trans (congrArg (conclude s) (readField_short s _ _ hs))

/-- A READ that succeeded found its field readable, and answered with it. -/
theorem exec_read_inv {w : BitVec 6} {s t : State} (h : exec (.read w) s = .next t) (hs : t.resp.status = .none) :
    s.Readable s.pos (readWidth w) ∧ t = s.answered (s.pos + readWidth w)
      (respField (BitVec.ofNat 64 (s.fieldNat s.pos (readWidth w))) (readWidth w)) :=
  (gated_readField_inv h hs).2

/-- Settles O23. -/
theorem readReturnsTheField : Obligations.ReadReturnsTheField := fun w _ =>
  ⟨decode_read_word w, exec_read_readable w, exec_read_short w⟩

/-! ### Two READs and one (spec/40_extract.md R101) -/

/-- Settles O47: a field is readable where both its parts are, and its value is theirs joined; past the end the second
part is as short as the whole. -/
theorem readsCompose : Obligations.ReadsCompose := by
  intro w1 w2 w s t1 t2 hw he h1 hs1 h2
  have hw64 : readWidth w1 + readWidth w2 ≤ 64 := hw ▸ w.isLt
  replace hw : readWidth w = readWidth w1 + readWidth w2 := hw
  obtain ⟨hr1, rfl⟩ := exec_read_inv h1 hs1
  constructor
  · intro hs2
    obtain ⟨hr2, rfl⟩ := exec_read_inv h2 hs2
    have hr : s.Readable s.pos (readWidth w) := by
      rw [hw]
      exact (readable_add s s.pos _ _).mpr ⟨hr1, hr2⟩
    have hpos : s.pos + readWidth w = s.pos + readWidth w1 + readWidth w2 := by omega
    refine ⟨_, exec_read_readable w he hr, rfl, hpos, hpos, ?_⟩
    simp only [State.answered_resp, State.answered_pos, respField, fieldNat_answered]
    rw [hw]
    exact ofNat_fieldNat_add s s.pos hw64
  · intro hshort
    have hwide : 8 * s.len < s.pos + readWidth w := hshort
    have hsecond : 8 * s.len < s.pos + readWidth w1 + readWidth w2 := by omega
    cases h2.symm.trans (exec_read_short w2 he hsecond)
    exact ⟨rfl, if_pos he, _, exec_read_short w he hwide, rfl, if_pos he⟩

end Sys2Proof.Machine
end

section
/-! The family of spec/41_fields.md: what each field command returns, and PKT against the granular commands. -/

namespace Sys2Proof.Machine

open Sys2Proof.Laws.EncodedWordIsWellFormed (opcodeOf)

/-! ### The words and the two ends of a field command (spec/41_fields.md R120) -/

/-- The word of a command that reads the stream expresses it with any DATA (spec/30_encoding.md R76). -/
theorem decode_extraction {i : Instr} (h : isExtraction i = true) (data : Word64) : decode (encodeCmd i) data = .ok i := by
  have hop : opcodeOf i ≠ 0x8#4 ∧ opcodeOf i ≠ 0x9#4 ∧ opcodeOf i ≠ 0xA#4 := by
    cases i <;> simp_all [isExtraction, opcodeOf]
  obtain ⟨hchk, hstart, hwrbuf⟩ := opField_encodeCmd i ▸ hop
  exact (decode_data_irrelevant data _ hchk hstart hwrbuf).trans (decodeOfEncodeIsIdentity i)

/-- A body that computed a state ends its command in it. -/
theorem gated_ok {s t : State} {b : Except Stop State} (he : s.err = .none) (hb : b = .ok t) : gated s b = .next t := by
  rw [gated_ready b he, hb]; rfl

/-- A body that raises ends its command in the error. -/
theorem gated_error {s : State} {b : Except Stop State} {e : ErrCode} (he : s.err = .none)
    (hb : b = .error (.error e)) : gated s b = .next (s.failing e) := by
  rw [gated_ready b he, hb]; rfl

/-- A command of one read raises OUT_OF_BITS where its field does not fit. -/
theorem exec_singleRead_short {i : Instr} {n : Nat} (hi : singleRead i = some n) {s : State} (he : s.err = .none)
    (hs : 8 * s.len < s.pos + n) : exec i s = .next (s.failing .outOfBits) := by
  obtain ⟨f, hf⟩ := exec_of_singleRead hi s
  rw [hf]
  exact gated_error he (readField_short s n f hs)

/-! ### HDR (spec/41_fields.md R122) -/

/-- VERSION and TYPE are the two halves of the header. -/
theorem respHdr_fieldNat (s : State) (p : Nat) :
    respHdr (BitVec.ofNat 64 (s.fieldNat p 6)) =
      { Resp.zero with value := BitVec.ofNat 64 (s.fieldNat p 6), version := BitVec.ofNat 3 (s.fieldNat p 3),
                       typeId := BitVec.ofNat 3 (s.fieldNat (p + 3) 3), nbits := 6 } := by
  have hsplit : s.fieldNat p 6 = s.fieldNat p 3 * 2 ^ 3 + s.fieldNat (p + 3) 3 := fieldNat_add s p 3 3
  have hlow := fieldNat_lt s (p + 3) 3
  have hver : (BitVec.ofNat 64 (s.fieldNat p 6)).extractLsb' 3 3 = BitVec.ofNat 3 (s.fieldNat p 3) := by
    apply BitVec.eq_of_toNat_eq
    simp [Nat.shiftRight_eq_div_pow]
    omega
  have htype : (BitVec.ofNat 64 (s.fieldNat p 6)).extractLsb' 0 3 = BitVec.ofNat 3 (s.fieldNat (p + 3) 3) := by
    rw [extract_three, hsplit]
    apply BitVec.eq_of_toNat_eq
    simp
  rw [respHdr, hver, htype]

theorem exec_hdr_readable {s : State} (he : s.err = .none) (hr : s.Readable s.pos 6) :
    exec .hdr s = .next (s.answered (s.pos + 6)
      { Resp.zero with value := BitVec.ofNat 64 (s.fieldNat s.pos 6), version := BitVec.ofNat 3 (s.fieldNat s.pos 3),
                       typeId := BitVec.ofNat 3 (s.fieldNat (s.pos + 3) 3), nbits := 6 }) := by
  rw [← respHdr_fieldNat]
  exact gated_readField s 6 _ he hr

/-- Settles O24. -/
theorem hdrReturnsVersionAndType : Obligations.HdrReturnsVersionAndType := fun _ =>
  ⟨decode_extraction (i := .hdr) rfl, exec_hdr_readable, exec_singleRead_short (i := .hdr) rfl⟩

/-! ### LIT (spec/41_fields.md R121, R123) -/

/-- Settles O20: a stream holds fewer groups than `litFuel` allows turns, and the groups of a literal are bits of the
stream from `p` on. -/
theorem literalLoopEndsByItself : Obligations.LiteralLoopEndsByItself := by
  refine ⟨fun s fuel acc g ovf p hfuel => ?_, fun s p r hlit => ?_⟩
  · obtain ⟨k, rfl⟩ := Nat.exists_eq_add_of_le hfuel
    exact litTurns_more s _ k g p acc ovf (litFuel_enough s p)
  · obtain ⟨⟨hgroups, ⟨hfits, _⟩, _⟩, _, _, hpos⟩ := litLoop_ok_inv s hlit
    exact ⟨hgroups, by omega, hpos⟩

theorem exec_lit_literalAt {s : State} {g : Nat} (he : s.err = .none) (hl : s.LiteralAt s.pos g) :
    exec .lit s = .next (s.answered (s.pos + 5 * g)
      { Resp.zero with value := BitVec.ofNat 64 (s.literalNat s.pos g), groups := g,
                       litovf := decide (2 ^ 64 ≤ s.literalNat s.pos g), nbits := 5 * g }) :=
  gated_ok he (by rw [litLoop_literalAt s s.pos g hl]; rfl)

theorem exec_lit_literalCut {s : State} {g : Nat} (he : s.err = .none) (hl : s.LiteralCut s.pos g) :
    exec .lit s = .next (s.failing .outOfBits) :=
  gated_error he (by rw [litLoop_literalCut s s.pos g hl]; rfl)

/-- Settles O25: 16 groups are 16 nibbles, so their value is below `16 ^ 16 = 2 ^ 64`. -/
theorem litReturnsTheLiteral : Obligations.LitReturnsTheLiteral := fun s g =>
  ⟨decode_extraction (i := .lit) rfl, exec_lit_literalAt,
    fun hg => (literalNat_lt s s.pos g).trans_le (Nat.pow_le_pow_right (n := 16) (by decide) hg), exec_lit_literalCut⟩

/-! ### LTYPE, COUNT and TLEN (spec/41_fields.md R124-R126) -/

theorem fieldNat_one (s : State) (p : Nat) : s.fieldNat p 1 = s.bitAt p := by simp [State.fieldNat]

theorem respLtype_bitAt (s : State) (p : Nat) :
    respLtype (BitVec.ofNat 64 (s.bitAt p)) =
      { Resp.zero with value := BitVec.ofNat 64 (s.bitAt p), ltype := BitVec.ofNat 1 (s.bitAt p), nbits := 1 } := by
  have hbit : (BitVec.ofNat 64 (s.bitAt p)).extractLsb' 0 1 = BitVec.ofNat 1 (s.bitAt p) := by
    apply BitVec.eq_of_toNat_eq
    simp
  rw [respLtype, hbit]

theorem exec_ltype_readable {s : State} (he : s.err = .none) (hr : s.Readable s.pos 1) :
    exec .ltype s = .next (s.answered (s.pos + 1)
      { Resp.zero with value := BitVec.ofNat 64 (s.bitAt s.pos), ltype := BitVec.ofNat 1 (s.bitAt s.pos), nbits := 1 }) := by
  rw [← respLtype_bitAt, ← fieldNat_one]
  exact gated_readField s 1 _ he hr

theorem exec_count_readable {s : State} (he : s.err = .none) (hr : s.Readable s.pos 11) :
    exec .count s = .next (s.answered (s.pos + 11)
      { Resp.zero with value := BitVec.ofNat 64 (s.fieldNat s.pos 11), nbits := 11 }) :=
  gated_readField s 11 _ he hr

theorem exec_tlen_readable {s : State} (he : s.err = .none) (hr : s.Readable s.pos 15) :
    exec .tlen s = .next (s.answered (s.pos + 15)
      { Resp.zero with value := BitVec.ofNat 64 (s.fieldNat s.pos 15),
                       target := s.pos + 15 + s.fieldNat s.pos 15, nbits := 15 }) := by
  have htlen := gated_readField s 15 respTlen he hr
  rwa [respTlen, toNat_ofNat_fieldNat s s.pos (by decide)] at htlen

/-- Settles O26. -/
theorem ltypeReturnsTheBit : Obligations.LtypeReturnsTheBit := fun _ =>
  ⟨decode_extraction (i := .ltype) rfl, exec_ltype_readable, exec_singleRead_short (i := .ltype) rfl⟩

/-- Settles O27. -/
theorem countReturnsTheCount : Obligations.CountReturnsTheCount := fun _ =>
  ⟨decode_extraction (i := .count) rfl, exec_count_readable, exec_singleRead_short (i := .count) rfl⟩

/-- Settles O28. -/
theorem tlenReturnsLengthAndTarget : Obligations.TlenReturnsLengthAndTarget := fun _ =>
  ⟨decode_extraction (i := .tlen) rfl, exec_tlen_readable, exec_singleRead_short (i := .tlen) rfl⟩

/-! ### CHK (spec/41_fields.md R128) -/

/-- CHK at or below its target. -/
theorem exec_chk_of_le {target : Word64} {s : State} (he : s.err = .none) (h : s.pos ≤ target.toNat) :
    exec (.chk target) s = .next (s.writeResp (respChk (s.pos < target.toNat))) :=
  gated_ok he (if_neg (Nat.not_lt.mpr h))

theorem exec_chk_of_gt {target : Word64} {s : State} (he : s.err = .none) (h : target.toNat < s.pos) :
    exec (.chk target) s = .next (s.failing .mismatchedSubpacketLength) :=
  gated_error he (if_pos h)

/-- Settles O30. -/
theorem chkComparesPosWithTheTarget : Obligations.ChkComparesPosWithTheTarget := by
  refine fun target s => ⟨decodeOfEncodeIsIdentity (.chk target), fun he hlt => ?_, fun he heq => ?_, exec_chk_of_gt⟩
  · rw [exec_chk_of_le he hlt.le, decide_eq_true hlt]; rfl
  · rw [exec_chk_of_le he heq.le, decide_eq_false heq.not_lt]; rfl

end Sys2Proof.Machine
end

section
/-! The family of spec/41_fields.md: PKT, and its granular form. -/

namespace Sys2Proof.Machine

/-! ### PKT on a packet head that fits (spec/41_fields.md R127) -/

theorem exec_pkt_literal {s : State} {g : Nat} (he : s.err = .none) (hr : s.Readable s.pos 6)
    (h4 : s.fieldNat (s.pos + 3) 3 = 4) (hl : s.LiteralAt (s.pos + 6) g) :
    exec .pkt s = .next (s.answered (s.pos + (6 + 5 * g))
      { Resp.zero with kind := .literal, version := BitVec.ofNat 3 (s.fieldNat s.pos 3), typeId := 4,
                       value := BitVec.ofNat 64 (s.literalNat (s.pos + 6) g), groups := g,
                       litovf := decide (2 ^ 64 ≤ s.literalNat (s.pos + 6) g), nbits := 6 + 5 * g }) := by
  refine gated_ok (b := s.pktBody) he ?_
  rw [pktBody_header s hr, if_pos h4, h4, pktLiteral_literalAt s _ _ _ g hl, Nat.add_assoc, respPktLiteral,
    Nat.add_sub_cancel_left]
  rfl

theorem exec_pkt_count {s : State} (he : s.err = .none) (hr : s.Readable s.pos 18)
    (h4 : s.fieldNat (s.pos + 3) 3 ≠ 4) (hb : s.bitAt (s.pos + 6) = 1) :
    exec .pkt s = .next (s.answered (s.pos + 18)
      { Resp.zero with kind := .opCount, version := BitVec.ofNat 3 (s.fieldNat s.pos 3),
                       typeId := BitVec.ofNat 3 (s.fieldNat (s.pos + 3) 3), ltype := 1,
                       value := BitVec.ofNat 64 (s.fieldNat (s.pos + 7) 11), nbits := 18 }) := by
  obtain ⟨hr6, hr12⟩ := (readable_add s s.pos 6 12).mp hr
  refine gated_ok (b := s.pktBody) he ?_
  rw [pktBody_header s hr6, if_neg h4, pktOperator_count s _ _ _ hr12 hb, respPktCount, Nat.add_assoc,
    Nat.add_sub_cancel_left]

theorem exec_pkt_length {s : State} (he : s.err = .none) (hr : s.Readable s.pos 22)
    (h4 : s.fieldNat (s.pos + 3) 3 ≠ 4) (hb : s.bitAt (s.pos + 6) = 0) :
    exec .pkt s = .next (s.answered (s.pos + 22)
      { Resp.zero with kind := .opLength, version := BitVec.ofNat 3 (s.fieldNat s.pos 3),
                       typeId := BitVec.ofNat 3 (s.fieldNat (s.pos + 3) 3), ltype := 0,
                       value := BitVec.ofNat 64 (s.fieldNat (s.pos + 7) 15),
                       target := s.pos + 22 + s.fieldNat (s.pos + 7) 15, nbits := 22 }) := by
  obtain ⟨hr6, hr16⟩ := (readable_add s s.pos 6 16).mp hr
  refine gated_ok (b := s.pktBody) he ?_
  rw [pktBody_header s hr6, if_neg h4, pktOperator_length s _ _ _ hr16 hb, respPktLength,
    toNat_ofNat_fieldNat s _ (by decide), Nat.add_assoc s.pos 6 16, Nat.add_sub_cancel_left]

/-! ### PKT on a packet head that is cut off (spec/41_fields.md R127) -/

theorem readable_of_loaded {s : State} (hload : s.Loaded) {p n : Nat} (h : p + n ≤ 8 * s.len) : s.Readable p n :=
  ⟨h, fun k hk => hload _ (by omega)⟩

/-- The header of a loaded stream that ends inside VERSION or inside TYPE. -/
theorem pktBody_headerShort {s : State} (hload : s.Loaded) (h : 8 * s.len < s.pos + 6) :
    s.pktBody = .error (.error .outOfBits) := by
  by_cases hver : 8 * s.len < s.pos + 3
  · exact pktBody_short s hver
  · unfold State.pktBody
    rw [bits_readable s s.pos 3 (readable_of_loaded hload (by omega))]
    simp only [bind, Except.bind]
    rw [bits_short s (s.pos + 3) 3 (by omega)]

theorem pktLiteral_literalCut {s : State} {p g : Nat} (ver typ : BitVec 3) (h : s.LiteralCut p g) :
    s.pktLiteral ver typ p = .error (.error .outOfBits) := by
  unfold State.pktLiteral
  rw [litLoop_literalCut s p g h]; rfl

/-- An operator head that a loaded stream cuts off, in its length type or after it. -/
theorem pktOperator_cut {s : State} {p : Nat} (ver typ : BitVec 3) (hload : s.Loaded)
    (h : 8 * s.len < p + 1 ∨ (s.bitAt p = 1 ∧ 8 * s.len < p + 12) ∨ (s.bitAt p = 0 ∧ 8 * s.len < p + 16)) :
    s.pktOperator ver typ p = .error (.error .outOfBits) := by
  by_cases hltype : 8 * s.len < p + 1
  · unfold State.pktOperator
    rw [bits_short s p 1 hltype]; rfl
  · rw [pktOperator_ltype ver typ (readable_of_loaded hload (by omega))]
    rcases h with h | ⟨hb, h⟩ | ⟨hb, h⟩
    · exact absurd h hltype
    · rw [if_pos hb, bits_short s (p + 1) 11 (by omega)]; rfl
    · rw [if_neg (by omega), bits_short s (p + 1) 15 (by omega)]; rfl

/-- Settles O29: in the last clause the header is cut off, or it fits and the part that its type id calls for is cut
off. -/
theorem pktReturnsOnePacketHead : Obligations.PktReturnsOnePacketHead := by
  refine fun s => ⟨decode_extraction (i := .pkt) rfl, fun _ => exec_pkt_literal, exec_pkt_count, exec_pkt_length,
    fun he hload hcut => gated_error (b := s.pktBody) he ?_⟩
  by_cases hhdr : 8 * s.len < s.pos + 6
  · exact pktBody_headerShort hload hhdr
  · rw [pktBody_header s (readable_of_loaded hload (by omega))]
    rcases hcut with hcut | ⟨h4, g, hcut⟩ | ⟨h4, hcut⟩
    · exact absurd hcut hhdr
    · rw [if_pos h4, pktLiteral_literalCut _ _ hcut]
    · rw [if_neg h4, pktOperator_cut _ _ hload hcut]

/-! ### PKT against the granular commands (spec/48_driver.md R186) -/

section
variable {s : State} {q : Nat} (r : Resp)

/-- LIT after another answer, at `q` in the stream of `s`. -/
theorem exec_lit_answered {g : Nat} (he : s.err = .none) (hl : s.LiteralAt q g) :
    exec .lit (s.answered q r) = .next (s.answered (q + 5 * g)
      { Resp.zero with value := BitVec.ofNat 64 (s.literalNat q g), groups := g,
                       litovf := decide (2 ^ 64 ≤ s.literalNat q g), nbits := 5 * g }) := by
  rw [← literalNat_answered s q r]
  exact exec_lit_literalAt (s := s.answered q r) he hl

theorem exec_ltype_answered (he : s.err = .none) (hr : s.Readable q 1) :
    exec .ltype (s.answered q r) = .next (s.answered (q + 1)
      { Resp.zero with value := BitVec.ofNat 64 (s.bitAt q), ltype := BitVec.ofNat 1 (s.bitAt q), nbits := 1 }) :=
  exec_ltype_readable (s := s.answered q r) he hr

theorem exec_count_answered (he : s.err = .none) (hr : s.Readable q 11) :
    exec .count (s.answered q r) = .next (s.answered (q + 11)
      { Resp.zero with value := BitVec.ofNat 64 (s.fieldNat q 11), nbits := 11 }) := by
  rw [← fieldNat_answered s q r]
  exact exec_count_readable (s := s.answered q r) he hr

theorem exec_tlen_answered (he : s.err = .none) (hr : s.Readable q 15) :
    exec .tlen (s.answered q r) = .next (s.answered (q + 15)
      { Resp.zero with value := BitVec.ofNat 64 (s.fieldNat q 15), target := q + 15 + s.fieldNat q 15,
                       nbits := 15 }) := by
  rw [← fieldNat_answered s q r]
  exact exec_tlen_readable (s := s.answered q r) he hr

end

/-- Settles O48: the bits that PKT found readable are split into the fields of the granular commands, each of which runs
on the state that the one before it answered. -/
theorem granularFormEqualsPkt : Obligations.GranularFormEqualsPkt := by
  intro s t hexec hs
  obtain ⟨he, hbody⟩ := execPkt_inv hexec hs
  have htype := ofNat_three_eq_four _ (fieldNat_lt s (s.pos + 3) 3)
  rcases pktBody_cases s with ⟨g, hr, h4, hlit, e⟩ | ⟨hr, h4, hb, e⟩ | ⟨hr, h4, hb, e⟩ | e | ⟨a, _, _, e⟩ <;>
    rw [e] at hbody <;> cases hbody
  · exact ⟨_, exec_hdr_readable he hr, rfl, rfl, htype.mpr h4, .inl ⟨htype.mpr h4, rfl, _,
      exec_lit_answered _ he hlit, rfl, rfl, rfl, rfl, Nat.add_assoc ..⟩⟩
  · obtain ⟨hr6, hr12⟩ := (readable_add s s.pos 6 12).mp hr
    obtain ⟨hr1, hr11⟩ := (readable_add s (s.pos + 6) 1 11).mp hr12
    exact ⟨_, exec_hdr_readable he hr6, rfl, rfl, rfl, .inr ⟨htype.not.mpr h4, _,
      exec_ltype_answered _ he hr1, rfl, congrArg (BitVec.ofNat 1) hb, .inl ⟨congrArg (BitVec.ofNat 64) hb, rfl, _,
        exec_count_answered _ he hr11, rfl, rfl, rfl⟩⟩⟩
  · obtain ⟨hr6, hr16⟩ := (readable_add s s.pos 6 16).mp hr
    obtain ⟨hr1, hr15⟩ := (readable_add s (s.pos + 6) 1 15).mp hr16
    have htotal : (BitVec.ofNat 64 (s.fieldNat (s.pos + 7) 15)).toNat = s.fieldNat (s.pos + 7) 15 :=
      toNat_ofNat_fieldNat s _ (by decide)
    exact ⟨_, exec_hdr_readable he hr6, rfl, rfl, rfl, .inr ⟨htype.not.mpr h4, _,
      exec_ltype_answered _ he hr1, rfl, congrArg (BitVec.ofNat 1) hb, .inr ⟨congrArg (BitVec.ofNat 64) hb, rfl, _,
        exec_tlen_answered _ he hr15, rfl, rfl, congrArg (s.pos + 22 + ·) htotal.symm, rfl⟩⟩⟩

end Sys2Proof.Machine
end

section
/-! The family of spec/42_control.md: NOP, START and WRBUF. -/

namespace Sys2Proof.Machine

/-! ### NOP (spec/42_control.md R160) -/

/-- The word of NOP expresses it with any DATA (spec/30_encoding.md R76). -/
theorem decode_nop_word (data : Word64) : decode 0x0000#16 data = .ok .nop := decodePlain_eq_ok.mpr ⟨⟨rfl, rfl⟩, rfl⟩

/-- Settles O22: NOP's body cannot fail, so the ERR gate alone decides between the answer and the refusal. -/
theorem nopOnlyRespondsOk : Obligations.NopOnlyRespondsOk := fun _ =>
  ⟨decode_nop_word, fun he => gated_ok he rfl, fun he => gated_refuses _ he⟩

/-! ### START (spec/42_control.md R161) -/

theorem exec_start_of_gt {len : BitVec 64} {s : State} (h : s.params.bufBytes < len.toNat) :
    exec (.start len) s = .next (s.failing .badCommand) :=
  congrArg (conclude s) (if_pos h)

/-- Settles O31: START looks at its length only, not at ERR. -/
theorem startBeginsAStream : Obligations.StartBeginsAStream := fun len _ =>
  ⟨decodeOfEncodeIsIdentity (.start len), exec_start_of_le, exec_start_of_gt⟩

/-! ### WRBUF (spec/42_control.md R162) -/

/-- WRBUF's DATA as the number that spec/30_encoding.md R77 writes, for every address and byte. -/
theorem encodeData_wrbuf (addr : BitVec 56) (byte : Byte) :
    encodeData (.wrbuf addr byte) = BitVec.ofNat 64 (addr.toNat * 256 + byte.toNat) := by
  have h := encodeData_wrbuf_ofNat addr.toNat (Nat.le_of_lt_succ byte.isLt)
  rwa [BitVec.ofNat_toNat, BitVec.ofNat_toNat, BitVec.setWidth_eq, BitVec.setWidth_eq] at h

theorem exec_wrbuf_of_ge {addr : BitVec 56} {s : State} (byte : Byte) (h : s.params.bufBytes ≤ wrbufAddr addr) :
    exec (.wrbuf addr byte) s = .next (s.failing .badCommand) :=
  congrArg (conclude s) (if_pos h)

/-- Writing RESP leaves what every stream read gives. -/
@[simp] theorem readByte_writeResp (s : State) (r : Resp) (i : Nat) : (s.writeResp r).readByte i = s.readByte i :=
  readByte_congr s (s.writeResp r) rfl rfl i

/-- Settles O32: in range the next state is `writeByte` with RESP written, so the byte and its neighbours follow from the
rules of `writeByte`. -/
theorem wrbufWritesOneByte : Obligations.WrbufWritesOneByte := by
  intro addr byte s
  refine ⟨?_, fun hin => ⟨_, exec_wrbuf_of_lt byte hin, ?_, fun a hne => ⟨?_, ?_⟩, rfl⟩, exec_wrbuf_of_ge byte⟩
  · rw [← encodeData_wrbuf]
    exact decodeOfEncodeIsIdentity (.wrbuf addr byte)
  · rw [readByte_writeResp, readByte_writeByte_self]
  · rw [readByte_writeResp, readByte_writeByte_ne s byte hne]
  · exact cellAt_setCell_ne s.buf byte hne

end Sys2Proof.Machine
end

section
/-! The family of spec/48_driver.md: how a decode of a loaded stream ends. -/

namespace Sys2Proof.Machine

/-! ### A command on a loaded stream (spec/48_driver.md R180) -/

/-- Settles O40: a command stops only at an unknown byte below LEN, and a loaded stream has none. -/
theorem everyCommandAnswersOnALoadedStream : Obligations.EveryCommandAnswersOnALoadedStream := by
  intro i s hload
  obtain ⟨hfault, hrefused⟩ := onlyUninitReadStopsACommand i s
  cases h : exec i s with
  | next t => exact ⟨t, rfl⟩
  | fault f =>
    obtain ⟨_, _, a, _, hlt, hunknown⟩ := hfault f h
    exact absurd (hunknown.symm.trans (hload a hlt)) nofun
  | refused r => exact absurd h (hrefused r)

/-- A command other than START and WRBUF leaves a loaded stream loaded. -/
theorem Effect.loaded {i : Instr} {s t : State} (heff : Effect i s t) (hi : runsInError i = false) (hload : s.Loaded) :
    t.Loaded := by
  cases heff with
  | refused => exact hload
  | failed => exact hload
  | answered => exact hload
  | nop => exact hload
  | chk => exact hload
  | start _ h => subst h; cases hi
  | wrbuf _ _ h => subst h; cases hi

/-! ### A whole decode ends (spec/48_driver.md R185, spec/70_reset_and_hazards.md R240) -/

/-- A part of a decode ended as R185 lets it: it returned with the stream still loaded, or failed with an error code. -/
inductive Decoded.Ends {α : Type} : Decoded α → Prop
  | done (a : α) {s : State} (hload : s.Loaded) : Ends (.done a s)
  | failed {e : ErrCode} (he : e ≠ .none) (s : State) : Ends (.failed e s)

theorem Decoded.Ends.andThen {α β : Type} {d : Decoded α} {k : α → State → Decoded β} (hd : d.Ends)
    (hk : ∀ a s, d = .done a s → s.Loaded → (k a s).Ends) : (d.andThen k).Ends := by
  cases hd with
  | done a hload => exact hk a _ rfl hload
  | failed he s => exact .failed he s

/-- An issued command that reads or tests a loaded stream ends. -/
theorem issue_ends {i : Instr} {s : State} (hi : runsInError i = false) (hload : s.Loaded) : (issue i s).Ends := by
  obtain ⟨t, ht⟩ := everyCommandAnswersOnALoadedStream i s hload
  by_cases hs : t.resp.status = .none
  · rw [issue_of_exec ht hs]
    exact .done _ ((exec_effect ht).loaded hi hload)
  · rw [issue_of_exec_error ht hs]
    exact .failed hs t

theorem childrenDone_ends (u : Until) (sofar : Nat) {s : State} (hload : s.Loaded) : (childrenDone u sofar s).Ends := by
  cases u with
  | count c => exact .done _ hload
  | length target => exact (issue_ends rfl hload).andThen fun _ _ _ h => .done _ h

/-- More fuel than bits left is enough for a packet, and one more for children: a head takes bits before its children,
and so does a child before its later siblings. -/
theorem decode_ends (fuel : Nat) :
    (∀ {s : State}, s.Loaded → 8 * s.len - s.pos < fuel → (decodePacket fuel s).Ends) ∧
    (∀ (u : Until) (sofar : Nat) {s : State}, s.Loaded → 8 * s.len - s.pos + 1 < fuel →
      (decodeChildren fuel u sofar s).Ends) := by
  induction fuel with
  | zero => exact ⟨nofun, nofun⟩
  | succ fuel ih =>
    obtain ⟨ihPacket, ihChildren⟩ := ih
    refine ⟨fun {s} hload hfuel => ?_, fun u sofar {s} hload hfuel => ?_⟩
    · rw [decodePacket]
      refine (issue_ends rfl hload).andThen fun r v hpkt hv => ?_
      obtain ⟨hlen, hfit, ⟨hkind, _⟩ | ⟨hkind, hhead⟩⟩ := issue_pkt_consumes hpkt
      · rw [if_pos hkind]
        exact .done _ hv
      · rw [if_neg hkind]
        exact (ihChildren _ 0 hv (by omega)).andThen fun _ _ _ h => .done _ h
    · rw [decodeChildren]
      refine (childrenDone_ends u sofar hload).andThen fun finished v hdone hv => ?_
      obtain ⟨hpos, hlen⟩ := childrenDone_pos_len hdone
      cases finished with
      | true => exact .done _ hv
      | false =>
        refine (ihPacket hv (by omega)).andThen fun p w hp hw => ?_
        obtain ⟨hdepth, hlen', -, hfit, hbits⟩ := (decode_consumes fuel).1 hp
        exact (ihChildren u (sofar + 1) hw (by omega)).andThen fun _ _ _ h => .done _ h

theorem Decoded.Ends.done_or_failed {α : Type} {d : Decoded α} (h : d.Ends) :
    (∃ a s, d = .done a s) ∨ ∃ e s, e ≠ ErrCode.none ∧ d = .failed e s := by
  cases h with
  | done a => exact .inl ⟨a, _, rfl⟩
  | failed he s => exact .inr ⟨_, s, he, rfl⟩

/-- Settles O55: `decodeFuel` is more than the bits left. -/
theorem wholeDecodeEnds : Obligations.WholeDecodeEnds := fun _ hload =>
  ((decode_ends _).1 hload (Nat.lt_succ_self _)).done_or_failed

end Sys2Proof.Machine
end

section
/-! The family of spec/48_driver.md: the tree of a decode from its token stream alone (R187). -/

namespace Sys2Proof.Machine

/-! ### What the host's loops see of one command (spec/48_driver.md R181-R183) -/

/-- A PKT that returned moved POS by NBITS, and its target lies at most a TLEN field past the stream. -/
theorem issue_pkt_pos_target {s t : State} {r : Resp} (h : issue .pkt s = .done r t) :
    t.pos = s.pos + r.nbits ∧ r.target ≤ 8 * s.len + 32767 := by
  obtain ⟨hexec, rfl, hs⟩ := exec_of_issue h
  refine ⟨(exec_effect hexec).pos_eq nofun, ?_⟩
  cases exec_effect hexec with
  | refused he => exact absurd hs he
  | failed e he => exact absurd hs he
  | answered r _ _ hfit _ _ _ htarget => exact htarget.trans (by omega)
  | nop hi => cases hi
  | chk _ hi => cases hi
  | start _ hi => cases hi
  | wrbuf _ _ hi => cases hi

/-- A length predicate whose target CHK's DATA can carry; a count predicate issues no CHK. -/
def Until.FitsData : Until → Prop
  | .count _ => True
  | .length t => t < 2 ^ 64

theorem childrenUntil_fitsData {r : Resp} (h : r.target < 2 ^ 64) : (childrenUntil r).FitsData := by
  unfold childrenUntil
  split
  · trivial
  · exact h

/-- A CHK that returned answers 0 exactly where POS is not below the target. -/
theorem issue_chk_value {target : Word64} {s t : State} {r : Resp} (h : issue (.chk target) s = .done r t) :
    (r.value == 0) = !decide (s.pos < target.toNat) := by
  obtain ⟨hexec, rfl, hs⟩ := exec_of_issue h
  rcases gated_next (s := s) hexec with ⟨he, rfl⟩ | ⟨_, hb | ⟨e, hb, rfl⟩⟩
  · exact absurd hs he
  · split at hb
    · cases hb
    · cases hb
      change ((respChk (decide (s.pos < target.toNat))).value == 0) = _
      cases decide (s.pos < target.toNat) <;> rfl
  · split at hb
    · cases hb; cases hs
    · cases hb

/-- Where the driver's test of the children returns, it says what the token stream's POS says. -/
theorem childrenDone_eq_finished {u : Until} {sofar : Nat} {s t : State} {b : Bool} (hu : u.FitsData)
    (h : childrenDone u sofar s = .done b t) : b = u.finished sofar s.pos := by
  cases u with
  | count c => cases h; rfl
  | length target =>
    obtain ⟨r, v, hissue, hdone⟩ := andThen_done h
    cases hdone
    have hnat : (BitVec.ofNat 64 target).toNat = target := Nat.mod_eq_of_lt hu
    rw [issue_chk_value hissue, hnat]
    rfl

/-- Rebuilding reads exactly the tokens that a decode appended, whatever tokens follow. -/
theorem rebuild_of_decode (fuel : Nat) :
    (∀ {s t : State} {p : Packet × List Resp} (rest : List Resp), 8 * s.len + 32767 < 2 ^ 64 →
      decodePacket fuel s = .done p t → rebuildPacket fuel s.pos (p.2 ++ rest) = some (p.1, t.pos, rest)) ∧
    (∀ {u : Until} {sofar : Nat} {s t : State} {ps : List Packet × List Resp} (rest : List Resp), u.FitsData →
      8 * s.len + 32767 < 2 ^ 64 → decodeChildren fuel u sofar s = .done ps t →
      rebuildChildren fuel u sofar s.pos (ps.2 ++ rest) = some (ps.1, t.pos, rest)) := by
  induction fuel with
  | zero => exact ⟨nofun, nofun⟩
  | succ fuel ih =>
    obtain ⟨ihPacket, ihChildren⟩ := ih
    refine ⟨fun {s t p} rest hlen h => ?_, fun {u sofar s t ps} rest hu hlen h => ?_⟩
    · rw [decodePacket] at h
      obtain ⟨r, v, hpkt, h⟩ := andThen_done h
      obtain ⟨hpos, htarget⟩ := issue_pkt_pos_target hpkt
      by_cases hkind : r.kind = .literal
      · rw [if_pos hkind] at h
        cases h
        rw [List.singleton_append, rebuildPacket, if_pos hkind, hpos]
      · rw [if_neg hkind] at h
        obtain ⟨ps, w, hps, h⟩ := andThen_done h
        cases h
        have hchildren := ihChildren rest (childrenUntil_fitsData (by omega))
          (by rw [(issue_pkt_consumes hpkt).1]; exact hlen) hps
        rw [List.cons_append, rebuildPacket, if_neg hkind, ← hpos, hchildren]
        rfl
    · rw [decodeChildren] at h
      obtain ⟨finished, v, hdone, h⟩ := andThen_done h
      obtain ⟨hpos, hlenv⟩ := childrenDone_pos_len hdone
      have hfinished := childrenDone_eq_finished hu hdone
      cases finished with
      | true =>
        cases h
        rw [List.nil_append, rebuildChildren, if_pos hfinished.symm, hpos]
      | false =>
        obtain ⟨p, w, hp, h⟩ := andThen_done h
        obtain ⟨qs, x, hqs, h⟩ := andThen_done h
        cases h
        have hlenw := ((decode_consumes fuel).1 hp).2.len_eq
        have hpacket := ihPacket (qs.2 ++ rest) (by omega) hp
        have hchildren := ihChildren rest hu (by omega) hqs
        rw [hpos] at hpacket
        rw [List.append_assoc, rebuildChildren, ← hfinished, hpacket]
        simp only [Bool.false_eq_true, if_false, Option.bind_some, hchildren, Option.map_some]

/-- Settles O57: no tokens follow those of the decode. -/
theorem tokenStreamRebuildsTheTree : Obligations.TokenStreamRebuildsTheTree := by
  intro s t p tokens hlen h
  have hrebuild := (rebuild_of_decode _).1 [] hlen h
  rwa [List.append_nil] at hrebuild

end Sys2Proof.Machine
end

section
/-! The family of spec/48_driver.md: two decodes in states of one view (R184). -/

namespace Sys2Proof.Machine

/-! ### The bodies of READ, PKT and CHK see only the view of a state -/

/-- Two bodies, one in each of two states, that answer alike: the same POS and response, or the same stop. -/
inductive AnswersAlike (s t : State) : Except Stop State → Except Stop State → Prop
  | answered (q : Nat) (r : Resp) : AnswersAlike s t (.ok (s.answered q r)) (.ok (t.answered q r))
  | stopped (e : Stop) : AnswersAlike s t (.error e) (.error e)

/-- Bodies that begin with one read answer alike if they do so after every value that the read can return. -/
theorem AnswersAlike.bind {s t : State} {α : Type} (x : Except Stop α) {f g : α → Except Stop State}
    (hfg : ∀ a, AnswersAlike s t (f a) (g a)) : AnswersAlike s t (x >>= f) (x >>= g) := by
  cases x with
  | ok a => exact hfg a
  | error e => exact .stopped e

section
variable {s t : State} (h : s.SameView t)
include h

theorem State.SameView.pos_eq : t.pos = s.pos := h.2.2.1
theorem State.SameView.err_eq : t.err = s.err := h.2.2.2.1
theorem State.SameView.resp_eq : t.resp = s.resp := h.2.2.2.2

theorem State.SameView.readField (n : Nat) (f : BitVec 64 → Nat → Resp) :
    AnswersAlike s t (s.readField n f) (t.readField n f) := by
  unfold State.readField
  rw [h.bits, h.pos_eq]
  exact .bind _ fun _ => .answered _ _

theorem State.SameView.pktLiteral (ver typ : BitVec 3) (p : Nat) :
    AnswersAlike s t (s.pktLiteral ver typ p) (t.pktLiteral ver typ p) := by
  unfold State.pktLiteral
  rw [h.litLoop, h.pos_eq]
  exact .bind _ fun _ => .answered _ _

theorem State.SameView.pktOperator (ver typ : BitVec 3) (p : Nat) :
    AnswersAlike s t (s.pktOperator ver typ p) (t.pktOperator ver typ p) := by
  unfold State.pktOperator
  simp only [h.bits, h.pos_eq]
  refine .bind _ fun ⟨lt, q⟩ => ?_
  dsimp only
  split
  · exact .bind _ fun _ => .answered _ _
  · exact .bind _ fun _ => .answered _ _

theorem State.SameView.pktBody : AnswersAlike s t s.pktBody t.pktBody := by
  unfold State.pktBody
  simp only [h.bits, h.pos_eq]
  refine .bind _ fun ⟨v, p⟩ => .bind _ fun ⟨ty, q⟩ => ?_
  dsimp only
  split
  · exact h.pktLiteral _ _ _
  · exact h.pktOperator _ _ _

/-! ### One issued command (spec/48_driver.md R181, R185) -/

theorem State.SameView.answered (q : Nat) (r : Resp) : (s.answered q r).SameView (t.answered q r) :=
  ⟨h.1, h.2.1, rfl, h.err_eq, rfl⟩

theorem State.SameView.writeResp (r : Resp) : (s.writeResp r).SameView (t.writeResp r) :=
  ⟨h.1, h.2.1, h.pos_eq, h.err_eq, rfl⟩

theorem State.SameView.raise (e : ErrCode) : (s.raise e).SameView (t.raise e) :=
  ⟨h.1, h.2.1, h.pos_eq, by simp only [State.raise_err, h.err_eq], rfl⟩

theorem State.SameView.refuse : s.refuse.SameView t.refuse := by
  unfold State.refuse
  rw [h.err_eq]
  exact h.writeResp _

end

/-- A command with next states of one view is issued alike. -/
theorem issue_alike_of_exec {i : Instr} {s t u v : State} (hs : exec i s = .next u) (ht : exec i t = .next v)
    (h : u.SameView v) : (issue i s).Alike (issue i t) := by
  by_cases hstatus : u.resp.status = .none
  · rw [issue_of_exec hs hstatus, issue_of_exec ht (h.resp_eq ▸ hstatus)]
    exact ⟨h.resp_eq.symm, h⟩
  · rw [issue_of_exec_error hs hstatus, issue_of_exec_error ht (h.resp_eq ▸ hstatus)]
    exact ⟨by rw [h.resp_eq], h⟩

theorem issue_of_exec_fault {i : Instr} {s : State} {f : Fault} (h : exec i s = .fault f) : issue i s = .stopped f := by
  simp only [issue, accept_encode, h]

section
variable {s t : State} (h : s.SameView t)
include h

/-- A command behind the ERR gate is issued alike in states of one view if its body answers alike. -/
theorem State.SameView.issue_gated {i : Instr} {b c : Except Stop State} (hs : exec i s = gated s b)
    (ht : exec i t = gated t c) (hbc : AnswersAlike s t b c) : (issue i s).Alike (issue i t) := by
  by_cases he : s.err = .none
  · rw [gated_ready b he] at hs
    rw [gated_ready c (h.err_eq.trans he)] at ht
    cases hbc with
    | answered q r => exact issue_alike_of_exec hs ht (h.answered q r)
    | stopped stop =>
      cases stop with
      | error e => exact issue_alike_of_exec hs ht (h.raise e)
      | uninitRead a => rw [issue_of_exec_fault hs, issue_of_exec_fault ht]; rfl
  · rw [gated_refuses b he] at hs
    rw [gated_refuses c (h.err_eq ▸ he)] at ht
    exact issue_alike_of_exec hs ht h.refuse

theorem State.SameView.issue_read (w : BitVec 6) : (issue (.read w) s).Alike (issue (.read w) t) :=
  h.issue_gated rfl rfl (h.readField _ _)

theorem State.SameView.issue_pkt : (issue .pkt s).Alike (issue .pkt t) := h.issue_gated rfl rfl h.pktBody

theorem State.SameView.issue_chk (target : BitVec 64) : (issue (.chk target) s).Alike (issue (.chk target) t) := by
  refine h.issue_gated rfl rfl ?_
  rw [h.pos_eq]
  split
  · exact .stopped _
  · have hanswer : t.writeResp = t.answered s.pos := by rw [← h.pos_eq]; rfl
    rw [hanswer]
    exact .answered s.pos _

/-! ### The parts of a whole decode (spec/48_driver.md R182-R184) -/

theorem State.SameView.issueAll_reads (ws : List (BitVec 6)) :
    (issueAll (ws.map .read) s).Alike (issueAll (ws.map .read) t) := by
  induction ws generalizing s t with
  | nil => exact ⟨rfl, h⟩
  | cons w ws ih => exact (h.issue_read w).andThen fun _ _ _ h => ih h

theorem State.SameView.childrenDone (u : Until) (sofar : Nat) :
    (childrenDone u sofar s).Alike (childrenDone u sofar t) := by
  cases u with
  | count c => exact ⟨rfl, h⟩
  | length target => exact (h.issue_chk _).andThen fun _ _ _ h => ⟨rfl, h⟩

end

/-- With the same fuel, packets and children are decoded alike in states of one view. -/
theorem decode_alike (fuel : Nat) :
    (∀ {s t : State}, s.SameView t → (decodePacket fuel s).Alike (decodePacket fuel t)) ∧
    (∀ (u : Until) (sofar : Nat) {s t : State}, s.SameView t →
      (decodeChildren fuel u sofar s).Alike (decodeChildren fuel u sofar t)) := by
  induction fuel with
  | zero => exact ⟨fun _ => trivial, fun _ _ _ _ _ => trivial⟩
  | succ fuel ih =>
    obtain ⟨ihPacket, ihChildren⟩ := ih
    refine ⟨fun h => ?_, fun u sofar _ _ h => ?_⟩
    · rw [decodePacket, decodePacket]
      refine h.issue_pkt.andThen fun r _ _ h => ?_
      split
      · exact ⟨rfl, h⟩
      · exact (ihChildren _ 0 h).andThen fun _ _ _ h => ⟨rfl, h⟩
    · rw [decodeChildren, decodeChildren]
      refine (h.childrenDone u sofar).andThen fun finished _ _ h => ?_
      split
      · exact ⟨rfl, h⟩
      · exact (ihPacket h).andThen fun _ _ _ h =>
          (ihChildren u (sofar + 1) h).andThen fun _ _ _ h => ⟨rfl, h⟩

theorem State.SameView.decodeStream {s t : State} (h : s.SameView t) : (decodeStream s).Alike (decodeStream t) := by
  have hfuel : decodeFuel t = decodeFuel s := by rw [decodeFuel, h.2.1, h.pos_eq, decodeFuel]
  unfold Machine.decodeStream
  rw [hfuel]
  exact (decode_alike _).1 h

/-- Loads of the same bytes leave states of one view, whatever states they start from. -/
theorem issueAll_assembleLoad_sameView {s t : State} {bytes : List Nat} {scmds tcmds : List Instr}
    (hs : assembleLoad s.params bytes = some scmds) (ht : assembleLoad t.params bytes = some tcmds) :
    ∃ u v, issueAll scmds s = .done () u ∧ issueAll tcmds t = .done () v ∧ u.SameView v := by
  obtain ⟨u, hu, hulen, hupos, huerr, huresp, -, huread⟩ := loadLeavesTheBytesAsTheStream s bytes scmds hs
  obtain ⟨v, hv, hvlen, hvpos, hverr, hvresp, -, hvread⟩ := loadLeavesTheBytesAsTheStream t bytes tcmds ht
  refine ⟨u, v, issueAll_of_execAll (succeeds_assembleLoad hs) hu, issueAll_of_execAll (succeeds_assembleLoad ht) hv,
    fun a ha => ?_, hvlen.trans hulen.symm, hvpos.trans hupos.symm, hverr.trans huerr.symm, hvresp.trans huresp.symm⟩
  have hbyte := List.getElem?_eq_getElem (hulen ▸ ha)
  rw [huread a _ hbyte, hvread a _ hbyte]

/-- Settles O59: the loads leave states of one view, and the skip and the decode see nothing else. -/
theorem decodingIsAFunctionOfBytesAndOffset : Obligations.DecodingIsAFunctionOfBytesAndOffset := by
  intro bytes skip s t d e hd he
  obtain ⟨scmds, hs, rfl⟩ := Option.map_eq_some_iff.mp hd
  obtain ⟨tcmds, ht, rfl⟩ := Option.map_eq_some_iff.mp he
  obtain ⟨u, v, hu, hv, h⟩ := issueAll_assembleLoad_sameView hs ht
  obtain ⟨ws, hws, -⟩ := skipCommands_eq skip
  rw [issueAll_append hu, issueAll_append hv, hws]
  exact (h.issueAll_reads ws).andThen fun _ _ _ h => h.decodeStream

end Sys2Proof.Machine
end

section
/-! The family of spec/60_exceptions.md: which command raises which error, and the error state. -/

namespace Sys2Proof.Machine

/-! ### Which command raises which error (spec/60_exceptions.md R200) -/

/-- The errors that a command can raise, each with where it raises it: only BAD_COMMAND is raised while ERR != 0
(spec/60_exceptions.md R201-R203, R214). -/
inductive Raises : Instr → State → ErrCode → Prop
  | outOfBits {i : Instr} {s : State} (hi : isExtraction i = true) (he : s.err = .none) : Raises i s .outOfBits
  | mismatch (target : BitVec 64) {s : State} (he : s.err = .none) : Raises (.chk target) s .mismatchedSubpacketLength
  | startTooLong {len : BitVec 64} {s : State} (h : s.params.bufBytes < len.toNat) : Raises (.start len) s .badCommand
  | wrbufOutside {addr : BitVec 56} (byte : BitVec 8) {s : State} (h : s.params.bufBytes ≤ wrbufAddr addr) :
      Raises (.wrbuf addr byte) s .badCommand

/-- A command behind the ERR gate that answers an error and is not refused ran from ERR = 0, and its body raised it. -/
theorem gated_raises_inv {s t : State} {b : Except Stop State} (h : gated s b = .next t)
    (hr : t.resp.refused = false) (hb : ∀ u, b = .ok u → u.resp.status = .none) (hs : t.resp.status ≠ .none) :
    s.err = .none ∧ b = .error (.error t.resp.status) := by
  rcases gated_next h with ⟨_, rfl⟩ | ⟨he, hok | ⟨e, herr, rfl⟩⟩
  · cases hr
  · exact absurd (hb t hok) hs
  · exact ⟨he, herr⟩

/-- A body that reads the stream raises no error but OUT_OF_BITS, and what it answers has STATUS 0. -/
theorem ReadAnswer.status {s : State} {b : Except Stop State} (hb : ReadAnswer s b) :
    (∀ u, b = .ok u → u.resp.status = .none) ∧ ∀ e, b = .error (.error e) → e = .outOfBits := by
  cases hb with
  | answered r _ hs => exact ⟨by rintro _ ⟨⟩; exact hs, nofun⟩
  | short => exact ⟨nofun, by rintro _ ⟨⟩; rfl⟩
  | uninit => exact ⟨nofun, nofun⟩

/-- A command of the stream raises no error but OUT_OF_BITS. -/
theorem raises_of_exec_extraction {i : Instr} {s t : State} (hi : isExtraction i = true) (h : exec i s = .next t)
    (hr : t.resp.refused = false) (hs : t.resp.status ≠ .none) : Raises i s t.resp.status := by
  obtain ⟨b, hexec, hb⟩ := exec_extraction i s hi
  obtain ⟨hok, herr⟩ := hb.status
  obtain ⟨he, hraise⟩ := gated_raises_inv (hexec.symm.trans h) hr hok hs
  rw [herr _ hraise]
  exact .outOfBits hi he

/-- Every error that a command raises. -/
theorem exec_raises {i : Instr} {s t : State} (h : exec i s = .next t) (hr : t.resp.refused = false)
    (hs : t.resp.status ≠ .none) : Raises i s t.resp.status := by
  cases i with
  | nop =>
    obtain ⟨_, hraise⟩ := gated_raises_inv (b := .ok (s.writeResp Resp.zero)) h hr (by rintro _ ⟨⟩; rfl) hs
    cases hraise
  | chk target =>
    by_cases he : s.err = .none
    · rcases Nat.lt_or_ge target.toNat s.pos with hgt | hle
      · cases (exec_chk_of_gt he hgt).symm.trans h
        exact .mismatch target he
      · cases (exec_chk_of_le he hle).symm.trans h
        exact absurd rfl hs
    · cases (gated_refuses _ he).symm.trans h
      cases hr
  | start len =>
    rcases Nat.lt_or_ge s.params.bufBytes len.toNat with hgt | hle
    · cases (exec_start_of_gt hgt).symm.trans h
      exact .startTooLong hgt
    · cases (exec_start_of_le hle).symm.trans h
      exact absurd rfl hs
  | wrbuf addr byte =>
    rcases Nat.lt_or_ge (wrbufAddr addr) s.params.bufBytes with hlt | hge
    · cases (exec_wrbuf_of_lt byte hlt).symm.trans h
      exact absurd rfl hs
    · cases (exec_wrbuf_of_ge byte hge).symm.trans h
      exact .wrbufOutside byte hge
  | _ => exact raises_of_exec_extraction rfl h hr hs

/-- Every error that an accepted word raises: one of the command it decodes to, or BAD_COMMAND from ERR = 0. -/
theorem accept_raises {cmd : CmdWord} {data : Word64} {s t : State} (h : accept cmd data s = .next t)
    (hr : t.resp.refused = false) (hs : t.resp.status ≠ .none) :
    (∃ i, decode cmd data = .ok i ∧ Raises i s t.resp.status) ∨
    (wellFormed cmd = false ∧ s.err = .none ∧ t.resp.status = .badCommand) := by
  rcases accept_next_cases h with ⟨i, hdec, _⟩ | ⟨hwf, he, rfl⟩ | ⟨_, _, rfl⟩
  · exact .inl ⟨i, hdec, exec_raises ((accept_of_decode s hdec).symm.trans h) hr hs⟩
  · exact .inr ⟨hwf, he, rfl⟩
  · cases hr

/-- Settles O35: the command that raised is known by its error, and its word by the encoder. -/
theorem eachErrorHasItsCommands : Obligations.EachErrorHasItsCommands := by
  intro cmd data s t hacc hr
  by_cases hs : t.resp.status = .none
  · simp [hs]
  · rcases accept_raises hacc hr hs with ⟨i, hdec, hraise⟩ | ⟨hwf, _, hbad⟩
    · have hcmd : encodeCmd i = cmd := encodeCmd_of_decode hdec
      generalize t.resp.status = e at hraise
      cases hraise with
      | outOfBits hi => exact ⟨fun _ => ⟨i, hdec, hi⟩, nofun, nofun⟩
      | mismatch => exact ⟨nofun, fun _ => hcmd.symm, nofun⟩
      | startTooLong => exact ⟨nofun, nofun, fun _ => .inl hcmd.symm⟩
      | wrbufOutside => exact ⟨nofun, nofun, fun _ => .inr (.inl hcmd.symm)⟩
    · rw [hbad]
      exact ⟨nofun, nofun, fun _ => .inr (.inr hwf)⟩

/-! ### Errors in the error state (spec/60_exceptions.md R214) -/

/-- What raises an error while ERR != 0 is a START or WRBUF out of range, and it raises BAD_COMMAND. -/
theorem Raises.of_latched {i : Instr} {s : State} {e : ErrCode} (h : Raises i s e) (he : s.err ≠ .none) :
    ((∃ len, i = .start len ∧ s.params.bufBytes < len.toNat) ∨
      ∃ addr byte, i = .wrbuf addr byte ∧ s.params.bufBytes ≤ wrbufAddr addr) ∧ e = .badCommand := by
  cases h with
  | outOfBits _ he' => exact absurd he' he
  | mismatch _ he' => exact absurd he' he
  | startTooLong h => exact ⟨.inl ⟨_, rfl, h⟩, rfl⟩
  | wrbufOutside byte h => exact ⟨.inr ⟨_, byte, rfl, h⟩, rfl⟩

/-- Settles O36: by what can raise while ERR != 0, and the answers of START and WRBUF in range, which do not look at
ERR. -/
theorem errorsDoNotNestOrLockUp : Obligations.ErrorsDoNotNestOrLockUp := by
  refine ⟨fun cmd data s t hacc he hs hr => ?_, fun s => ⟨fun len hle => ⟨_, exec_start_of_le hle, rfl⟩,
    fun addr byte hlt => ⟨_, exec_wrbuf_of_lt byte hlt, rfl⟩⟩⟩
  have herr : t.err = s.err := by
    rw [(errorsArePrecise cmd data s t hacc).2 hs]
    exact if_neg he
  rcases accept_raises hacc hr hs with ⟨i, hdec, hraise⟩ | ⟨_, he', _⟩
  · obtain ⟨hcmd, hbad⟩ := hraise.of_latched he
    refine ⟨?_, hbad, herr⟩
    rcases hcmd with ⟨len, rfl, hlen⟩ | ⟨addr, byte, rfl, haddr⟩
    · exact .inl ⟨len, hdec, hlen⟩
    · exact .inr ⟨addr, byte, hdec, haddr⟩
  · exact absurd he' he

end Sys2Proof.Machine
end

section
/-! The family of spec/70_reset_and_hazards.md: a reset with a command in flight (R231). -/

namespace Sys2Proof.Machine

/-- The step of the host's act resetInFlight. -/
theorem step_of_resetInFlight {s : State} {cmd : CmdWord} {data : Word64} {rest : List HostAct}
    (h : s.host = .resetInFlight cmd data :: rest) :
    step s = .next (State.abandon { s with host := rest } cmd data) := by
  simp only [step, portStep, h, perform]

/-! ### What an abandoned WRBUF leaves in BUF -/

/-- Every byte but the addressed one is as it was. -/
theorem cellAt_abandonWrite_ne (s : State) {a i : Nat} (b : BitVec 8) (h : i ≠ a) :
    cellAt (s.abandonWrite a b).buf i = cellAt s.buf i := by
  rcases (abandonWrite_cases s a b).2 with hbuf | ⟨_, _, hbuf⟩ <;> rw [hbuf]
  exact cellAt_setCell_ne s.buf b h

/-- The addressed byte holds its old value or the new one. -/
theorem cellAt_abandonWrite_self (s : State) (a : Nat) (b : BitVec 8) :
    cellAt (s.abandonWrite a b).buf a = cellAt s.buf a ∨ cellAt (s.abandonWrite a b).buf a = some b := by
  rcases (abandonWrite_cases s a b).2 with hbuf | ⟨_, _, hbuf⟩ <;> rw [hbuf]
  · exact .inl rfl
  · exact .inr (cellAt_setCell_self s.buf a b)

/-! ### What an abandoned command leaves -/

/-- An abandoned WRBUF has the effect of `abandonWrite` at the address DATA gives. -/
theorem abandon_of_wrbuf (s : State) {cmd : CmdWord} {data : Word64} {addr : BitVec 56} {byte : BitVec 8}
    (h : decode cmd data = .ok (.wrbuf addr byte)) :
    s.abandon cmd data = (s.abandonWrite (wrbufAddr addr) byte).hardReset := by
  simp only [State.abandon, h, wrbufAddr]

/-- Any other abandoned word, malformed ones included, has no effect but the reset. -/
theorem abandon_of_not_wrbuf (s : State) {cmd : CmdWord} {data : Word64}
    (h : ∀ addr byte, decode cmd data ≠ .ok (.wrbuf addr byte)) : s.abandon cmd data = s.hardReset := by
  unfold State.abandon
  split
  case h_1 addr byte hdec => exact absurd hdec (h addr byte)
  case h_2 => rfl

/-- Whatever the command, only BUF and the draws can differ from what the reset alone leaves. -/
theorem abandon_eq_hardReset_except_buf (s : State) (cmd : CmdWord) (data : Word64) :
    ∃ buf draws, s.abandon cmd data = State.hardReset { s with buf := buf, draws := draws } := by
  unfold State.abandon
  split
  case h_1 addr byte _ => exact ⟨_, _, congrArg State.hardReset (abandonWrite_cases s addr.toNat byte).1⟩
  case h_2 => exact ⟨s.buf, s.draws, rfl⟩

/-- Settles O11: every field but BUF by `abandon_eq_hardReset_except_buf`, and BUF by whether the command is a WRBUF. -/
theorem resetAbandonsTheCommandInFlight : Obligations.ResetAbandonsTheCommandInFlight := by
  intro s cmd data rest hhost
  obtain ⟨buf, draws, heq⟩ := abandon_eq_hardReset_except_buf { s with host := rest } cmd data
  refine ⟨_, (step_of_resetInFlight hhost).trans (congrArg _ heq), rfl, rfl, rfl, rfl, rfl, rfl, rfl,
    fun a => readByte_unknown _ a rfl, fun hother => ?_, fun addr byte hwrbuf => ?_⟩
  · rw [← heq, abandon_of_not_wrbuf _ hother, State.hardReset_buf]
  · rw [← heq, abandon_of_wrbuf _ hwrbuf]
    exact ⟨fun a ha => cellAt_abandonWrite_ne _ byte ha, cellAt_abandonWrite_self _ (wrbufAddr addr) byte⟩

end Sys2Proof.Machine
end
